-- ==== Sys2Proof/Word.lean ====
section
/-! DEFINITION. The machine's two word types (00_scope.md R6: XLEN = 8 bits, the pc is 9 bits wide). -/

namespace Sys2Proof

/-- A register, a memory cell, an instruction byte: an unsigned 8-bit value (00_scope.md R6, R7). -/
abbrev Byte := BitVec 8

/-- The program counter: 9 bits, so that it holds an advance past address 255 (10_state.md R24). -/
abbrev Pc := BitVec 9

end Sys2Proof
end

