-- ==== Sys2Proof/Config.lean ====
section
/-! DEFINITION. What is fixed for a machine: the constants and the two parameters `OPCODE` and `WIDTH_POLICY` of
00_scope.md R6, and the nine mnemonics the parameter `OPCODE` maps to bytes. -/

namespace Sys2Proof

/-- The nine mnemonics of the closed opcode set (00_scope.md R2, R8), in the order of 30_encoding.md R62. -/
inductive Mnemonic where
  | hlt | ret | push | pop | prn | call | ldi | add | mul
  deriving DecidableEq, Repr

/-- All nine, in the table's order. -/
def Mnemonic.all : List Mnemonic := [.hlt, .ret, .push, .pop, .prn, .call, .ldi, .add, .mul]

/-- The operand count column of 30_encoding.md R62. -/
def Mnemonic.operandCount : Mnemonic → Nat
  | .hlt | .ret => 0
  | .push | .pop | .prn | .call => 1
  | .ldi | .add | .mul => 2

/-- The parameter `OPCODE`: the opcode byte of each mnemonic (00_scope.md R6, 30_encoding.md R62). -/
structure OpcodeMap where
  hlt : Byte
  ret : Byte
  push : Byte
  pop : Byte
  prn : Byte
  call : Byte
  ldi : Byte
  add : Byte
  mul : Byte
  deriving DecidableEq, Repr

/-- `OPCODE(m)`. -/
def OpcodeMap.byte (o : OpcodeMap) : Mnemonic → Byte
  | .hlt => o.hlt
  | .ret => o.ret
  | .push => o.push
  | .pop => o.pop
  | .prn => o.prn
  | .call => o.call
  | .ldi => o.ldi
  | .add => o.add
  | .mul => o.mul

/-- The LS-8 values, the spec's default of `OPCODE` (30_encoding.md R62).
PRESUMED by the spec itself (93_implementation_defined.md G1): unsafe, log entry 2. -/
def OpcodeMap.ls8 : OpcodeMap where
  hlt := 0x01
  ret := 0x11
  push := 0x45
  pop := 0x46
  prn := 0x47
  call := 0x50
  ldi := 0x82
  add := 0xA0
  mul := 0xA2

/-- The parameter `WIDTH_POLICY` (00_scope.md R6, 40_execution_cycle.md R83). -/
inductive WidthPolicy where
  | uniform
  | reference
  deriving DecidableEq, Repr

/-- The two parameters the model takes (00_scope.md R6). They do not change during a run. -/
structure Params where
  opcode : OpcodeMap
  widthPolicy : WidthPolicy
  deriving DecidableEq, Repr

/-- The defaults of both parameters (00_scope.md R6). UNVERIFIED for the repository itself: unsafe, log entries 2 and 3. -/
def Params.default : Params := { opcode := OpcodeMap.ls8, widthPolicy := .uniform }

/-- `MEM_SIZE` (00_scope.md R6). -/
abbrev Config.memSize : Nat := 256

/-- `PC_INIT` (00_scope.md R6). -/
def Config.pcInit : Pc := 0

/-- `SP_INIT` = 0xF4 = 244 (00_scope.md R6). -/
def Config.spInit : Byte := 0xF4

/-- What a memory cell holds at reset, so what an unlisted address reads as: 0 (10_state.md R31). -/
def Config.blankByte : Byte := 0

end Sys2Proof
end

