-- ==== Sys2Proof/Syntax.lean ====
section
/-! DEFINITION. The instructions: one constructor per row of spec/opcode_table.json, with the operand bytes A and B as the
spec's formats I1, I2 and I3 give them (30_encoding.md R61). An operand is a whole byte: a register index is checked when the
instruction uses it (10_state.md R23), not by the encoding. -/

namespace Sys2Proof

/-- The nine instructions (30_encoding.md R62, R64). `a` is operand byte A, `b` operand byte B. -/
inductive Instr where
  /-- HLT: no operand (format I1). -/
  | hlt
  /-- RET: no operand (format I1). -/
  | ret
  /-- PUSH Ra: `a` is a register index, read (format I2). -/
  | push (a : Byte)
  /-- POP Ra: `a` is a register index, written (format I2). -/
  | pop (a : Byte)
  /-- PRN Ra: `a` is a register index, read (format I2). -/
  | prn (a : Byte)
  /-- CALL Ra: `a` is the index of the register that holds the target (format I2). -/
  | call (a : Byte)
  /-- LDI Ra, imm: `a` is a register index, written; `b` is the immediate (format I3). -/
  | ldi (a b : Byte)
  /-- ADD Ra, Rb: `a` is a register index, read and written; `b` one that is read (format I3). -/
  | add (a b : Byte)
  /-- MUL Ra, Rb: both are register indices, read (format I3). -/
  | mul (a b : Byte)
  deriving DecidableEq, Repr

/-- The mnemonic an instruction is decoded from. -/
def Instr.mnemonic : Instr → Mnemonic
  | .hlt => .hlt
  | .ret => .ret
  | .push _ => .push
  | .pop _ => .pop
  | .prn _ => .prn
  | .call _ => .call
  | .ldi _ _ => .ldi
  | .add _ _ => .add
  | .mul _ _ => .mul

/-- The operand bytes that stand after the opcode byte, in address order (30_encoding.md R61). -/
def Instr.operandBytes : Instr → List Byte
  | .hlt | .ret => []
  | .push a | .pop a | .prn a | .call a => [a]
  | .ldi a b | .add a b | .mul a b => [a, b]

/-- The operand bytes an instruction uses as register indices, in the order they are checked (30_encoding.md R64,
40_execution_cycle.md R88). LDI's B is an immediate. -/
def Instr.registerBytes : Instr → List Byte
  | .hlt | .ret => []
  | .push a | .pop a | .prn a | .call a => [a]
  | .ldi a _ => [a]
  | .add a b | .mul a b => [a, b]

end Sys2Proof
end

