-- ==== Sys2Proof/WellFormed.lean ====
section
/-! DEFINITION. Which parameters and which instructions are well formed: the domain of `OPCODE` (00_scope.md R6,
30_encoding.md R63) and the range of a register operand (10_state.md R23). -/

namespace Sys2Proof

/-- The domain of the parameter `OPCODE`: the map is injective, and bits [7:6] of each byte equal the operand count
(00_scope.md R6, 30_encoding.md R63). -/
abbrev OpcodeMap.wf (o : OpcodeMap) : Prop :=
  (∀ m ∈ Mnemonic.all, ∀ n ∈ Mnemonic.all, o.byte m = o.byte n → m = n) ∧
  (∀ m ∈ Mnemonic.all, (o.byte m >>> 6).toNat = m.operandCount)

/-- Well-formed parameters. Both width policies are legal. -/
abbrev Params.wf (p : Params) : Prop := p.opcode.wf

/-- A well-formed instruction: every operand byte it uses as a register index is in 0..7 (10_state.md R23). An instruction that is
not well formed still decodes, and raises `InvalidRegisterError` when it runs (60_exceptions.md R162). -/
abbrev Instr.wf (i : Instr) : Prop := ∀ a ∈ i.registerBytes, a.toNat < 8

end Sys2Proof
end

