-- ==== Sys2Proof/Decode.lean ====
section
/-! DEFINITION. The instruction_decoder (40_execution_cycle.md R82, R83; 30_encoding.md R60 to R66), the encoder written from
the same formats, and the host's entry `decodeTableWord`. -/

namespace Sys2Proof

/-- The dispatcher column of 30_encoding.md R62. It only routes an instruction; no program observes it
(40_execution_cycle.md R82). -/
inductive DispatchClass where
  | primary
  | alu
  deriving DecidableEq, Repr

/-- The dispatcher of each mnemonic (30_encoding.md R62). -/
def Mnemonic.dispatchClass : Mnemonic → DispatchClass
  | .hlt | .push | .pop | .prn | .ldi => .primary
  | .ret | .call | .add | .mul => .alu

/-- Bits [7:6] of an opcode byte, plus one: the uniform width `ir[7:6] + 1` (40_execution_cycle.md R83). -/
def uniformWidth (ir : Byte) : Nat := (ir >>> 6).toNat + 1

/-- The reference width table of 40_execution_cycle.md R83; HLT has no width there, since its pc does not change. -/
def referenceWidth (m : Mnemonic) (ir : Byte) : Option Nat :=
  match m with
  | .ldi => some 3
  | .prn | .push | .pop | .call | .mul => some 2
  | .add => some (uniformWidth ir)
  | .ret => some 1
  | .hlt => none

/-- `width(ir)` under the width policy, the pc advance of an instruction that does not set pc (40_execution_cycle.md R83). -/
def Params.width (p : Params) (m : Mnemonic) : Option Nat :=
  match p.widthPolicy with
  | .uniform => some (uniformWidth (p.opcode.byte m))
  | .reference => referenceWidth m (p.opcode.byte m)

/-- The decoded record of 40_execution_cycle.md R82, for a known opcode. -/
structure Decoded where
  op : Mnemonic
  nops : Nat
  width : Option Nat
  dispatch : DispatchClass
  regA : Bool
  regB : Bool
  pcSet : Bool
  halt : Bool
  deriving DecidableEq, Repr

/-- The whole-byte match against the nine entries of `OPCODE` (30_encoding.md R65). -/
def OpcodeMap.lookup (o : OpcodeMap) (ir : Byte) : Option Mnemonic :=
  Mnemonic.all.find? fun m => o.byte m == ir

/-- The record of a known mnemonic (40_execution_cycle.md R82). -/
def Params.record (p : Params) (m : Mnemonic) : Decoded where
  op := m
  nops := m.operandCount
  width := p.width m
  dispatch := m.dispatchClass
  regA := m ∈ [.ldi, .prn, .push, .pop, .add, .mul, .call]
  regB := m ∈ [.add, .mul]
  pcSet := m ∈ [.call, .ret]
  halt := m = .hlt

/-- `decode(ir)`: the record of a known opcode byte, `none` for the others (40_execution_cycle.md R82). -/
def decodeOpcode (p : Params) (ir : Byte) : Option Decoded :=
  (p.opcode.lookup ir).map p.record

/-- The instruction that a decoded mnemonic and the two candidate operand bytes of the fetch window make; an unused operand byte
is ignored (30_encoding.md R64, 40_execution_cycle.md R81). -/
def Mnemonic.withOperands (m : Mnemonic) (a b : Byte) : Instr :=
  match m with
  | .hlt => .hlt
  | .ret => .ret
  | .push => .push a
  | .pop => .pop a
  | .prn => .prn a
  | .call => .call a
  | .ldi => .ldi a b
  | .add => .add a b
  | .mul => .mul a b

/-- Why a list of bytes is no instruction. -/
inductive DecodeError where
  /-- There is no byte at all. -/
  | noOpcode
  /-- The first byte is none of the nine `OPCODE` values (30_encoding.md R65). -/
  | unknownOpcode (ir : Byte)
  /-- The opcode is known and the list ends before its last operand byte. -/
  | missingOperand (m : Mnemonic)
  deriving DecidableEq, Repr

/-- Decode the instruction at the head of a list of bytes: the instruction and the bytes after it (30_encoding.md R60, R66). -/
def decode (p : Params) : List Byte → Except DecodeError (Instr × List Byte)
  | [] => .error .noOpcode
  | ir :: rest =>
    match decodeOpcode p ir with
    | none => .error (.unknownOpcode ir)
    | some d =>
      if rest.length < d.nops then .error (.missingOperand d.op)
      else .ok (d.op.withOperands (rest.getD 0 0) (rest.getD 1 0), rest.drop d.nops)

/-- The bytes of an instruction: its opcode byte, then its operand bytes in address order (30_encoding.md R61). -/
def encode (p : Params) : Instr → List Byte
  | .hlt => [p.opcode.byte .hlt]
  | .ret => [p.opcode.byte .ret]
  | .push a => [p.opcode.byte .push, a]
  | .pop a => [p.opcode.byte .pop, a]
  | .prn a => [p.opcode.byte .prn, a]
  | .call a => [p.opcode.byte .call, a]
  | .ldi a b => [p.opcode.byte .ldi, a, b]
  | .add a b => [p.opcode.byte .add, a, b]
  | .mul a b => [p.opcode.byte .mul, a, b]

/-- The three bytes of a table word of `nbits` bits, bit 0 the least significant bit of the first byte; the bits above `nbits` are
zero. Three bytes are the longest instruction (30_encoding.md R60). -/
def tableBytes (nbits w : Nat) : List Byte :=
  let v := w % 2 ^ nbits
  [BitVec.ofNat 8 v, BitVec.ofNat 8 (v / 256), BitVec.ofNat 8 (v / 65536)]

/-- What the decoder, at the spec's default parameters, reads from an instruction whose bits are `w` (log entry 10). -/
def decodeTableWord (nbits w : Nat) : Option Instr :=
  match decode Params.default (tableBytes nbits w) with
  | .ok (i, _) => some i
  | .error _ => none

end Sys2Proof
end

