-- ==== Sys2Proof/Machine/State.lean ====
section
/-! DEFINITION. The machine's whole state as plain data, its reset value, and the reasons a step can stop
(10_state.md R20 to R31, 60_exceptions.md R160). -/

namespace Sys2Proof.Machine

/-- The memory: (address, byte) pairs, addresses strictly rising, no entry equal to what an unlisted address reads as
(20_memory.md R40; the representation is log entry 8). -/
abbrev Memory := List Host.Cell

/-- The canonical form of `Memory`, every listed address in 0..255. -/
abbrev Memory.wf (m : Memory) : Prop :=
  m.Pairwise (fun c d => c.1 < d.1) ∧ ∀ c ∈ m, c.2 ≠ Config.blankByte ∧ c.1 < Config.memSize

/-- An error's kind with its `info` value (60_exceptions.md R160; one sum type for both, log entry 6). -/
inductive Err where
  /-- Code 1. `info` is the integer address, or stack-pointer value, that is out of range. -/
  | outOfRange (addr : Int)
  /-- Code 2. `info` is the operand byte used as a register index. -/
  | invalidRegister (operand : Byte)
  /-- Code 3. `info` is the opcode byte. -/
  | unknownOpcode (ir : Byte)
  /-- Code 4. `info` is the mnemonic. This CORE never raises it (60_exceptions.md R166). -/
  | unsupportedOperation (m : Mnemonic)
  deriving DecidableEq, Repr

/-- The engine mode (10_state.md R25). -/
inductive Mode where
  | running
  | halted
  /-- `ERROR(kind, pc_at_fault, info)`: the kind and its info are `e`. -/
  | error (e : Err) (pcAtFault : Pc)
  deriving DecidableEq, Repr

/-- The state of 10_state.md, and the run's parameters. -/
structure State where
  /-- `mem[0..255]` (10_state.md R29). -/
  mem : Memory
  /-- `x[0..7]`; `x[7]` is the stack pointer (10_state.md R20, R21). -/
  regs : Vector Byte 8
  /-- The program counter (10_state.md R24). -/
  pc : Pc
  /-- The engine mode (10_state.md R25). -/
  mode : Mode
  /-- The flag register, which no instruction reads or writes (10_state.md R26). -/
  fl : Byte
  /-- The output channel, oldest value first (10_state.md R27). -/
  out : List Nat
  /-- `OPCODE` and `WIDTH_POLICY` (00_scope.md R6), constant during a run. DESIGN CHOICE, safe: log entry 1. -/
  params : Params
  deriving DecidableEq, Repr

/-- The state right after reset, with no image loaded (10_state.md R31, 70_reset_and_hazards.md R180). -/
def State.reset : State where
  mem := []
  regs := (Vector.replicate 8 0).set 7 Config.spInit
  pc := Config.pcInit
  mode := .running
  fl := 0
  out := []
  params := Params.default

/-- Why a step has no next state. DESIGN CHOICE: log entry 4. -/
inductive Fault where
  /-- Raised by `step` when the mode is HALTED: no step is defined there (40_execution_cycle.md R80). Safe. -/
  | haltedIsTerminal
  /-- Raised by `step` when the mode is ERROR: no step is defined there (40_execution_cycle.md R80). Safe. -/
  | errorIsTerminal (e : Err) (pcAtFault : Pc)
  deriving DecidableEq, Repr

/-- What the model turns away. -/
inductive Refusal where
  /-- Raised by `exec` for an instruction with no meaning; every instruction has one, so no arm raises it. Safe. -/
  | notModelled (mnemonic : String)
  /-- Raised by `State.load` for an image of more than 256 bytes, outside the launch precondition
  (70_reset_and_hazards.md R183, 93_implementation_defined.md). Safe. -/
  | imageTooLong (length : Nat)
  deriving DecidableEq, Repr

/-- The outcome type of a step. -/
abbrev Result := Host.Outcome State Fault Refusal

end Sys2Proof.Machine
end

