-- ==== Sys2Proof/Machine/Flags.lean ====
section
/-! DEFINITION. The flag computation, whole: every instruction's rule says "Flags written: none" (41_primary_dispatch.md R100 to
R104, 42_alu_dispatch.md R130 to R134), and the ALU makes no carry, overflow, zero or sign flag (R130). -/

namespace Sys2Proof.Machine

/-- The flag register after an instruction: unchanged, whichever it is (10_state.md R26). -/
def flagsAfter (_m : Mnemonic) (fl : Byte) : Byte := fl

end Sys2Proof.Machine
end

