-- ==== Sys2Proof/Machine/Operands.lean ====
section
/-! DEFINITION. The register_file and the operand forms: register indices with their check, register reads and writes
(10_state.md R20 to R23, 40_execution_cycle.md R84). An immediate is used as it is (30_encoding.md R64). -/

namespace Sys2Proof.Machine

/-- `SP_INDEX` = 7 (00_scope.md R6). -/
def spIndex : Fin 8 := 7

/-- The check of an operand byte used as a register index: the whole byte must be in 0..7 (10_state.md R23,
30_encoding.md R64). -/
def regIndex (operand : Byte) : Except Err (Fin 8) :=
  if h : operand.toNat < 8 then .ok ⟨operand.toNat, h⟩ else .error (.invalidRegister operand)

/-- `x[r]`. -/
def State.reg (s : State) (r : Fin 8) : Byte := s.regs[r]

/-- `x[r] <- v`. No register discards a write (10_state.md R20). -/
def State.setReg (s : State) (r : Fin 8) (v : Byte) : State := { s with regs := s.regs.set r v }

/-- The stack pointer, another name for `x[7]` (10_state.md R21). -/
def State.sp (s : State) : Byte := s.reg spIndex

/-- `x[7] <- v`. -/
def State.setSp (s : State) (v : Byte) : State := s.setReg spIndex v

end Sys2Proof.Machine
end

