-- ==== Sys2Proof/Machine/Ops.lean ====
section
/-! DEFINITION. The named operations over the state: memory access, the simple_alu, the program_counter_next_logic, the
stack_pointer_logic, the instruction_fetch_unit, raising an error, the commit of a body, and the host loader. -/

namespace Sys2Proof.Machine

/-! ### Memory (20_memory.md R40 to R46) -/

/-- The byte at an address; an unlisted address reads as the reset contents (10_state.md R31). Only `memRead` and the fetch window
use it, after the range check. -/
def Memory.read : Memory → Nat → Byte
  | [], _ => Config.blankByte
  | (b, w) :: rest, a => if a = b then w else Memory.read rest a

/-- The memory with one byte replaced, in canonical form. -/
def Memory.write : Memory → Nat → Byte → Memory
  | [], a, v => if v = Config.blankByte then [] else [(a, v)]
  | (b, w) :: rest, a, v =>
    if a < b then
      if v = Config.blankByte then (b, w) :: rest else (a, v) :: (b, w) :: rest
    else if a = b then
      if v = Config.blankByte then rest else (a, v) :: rest
    else (b, w) :: Memory.write rest a v

/-- `MemRead(addr, 1)` (20_memory.md R41). -/
def State.memRead (s : State) (addr : Nat) : Except Err Byte :=
  if 255 < addr then .error (.outOfRange addr) else .ok (s.mem.read addr)

/-- `MemWrite(addr, 1, v)` (20_memory.md R42). -/
def State.memWrite (s : State) (addr : Nat) (v : Byte) : Except Err State :=
  if 255 < addr then .error (.outOfRange addr) else .ok { s with mem := s.mem.write addr v }

/-! ### Errors (60_exceptions.md R160, R164) -/

/-- The numeric code of an error's kind (60_exceptions.md R160). -/
def Err.code : Err → Nat
  | .outOfRange _ => 1
  | .invalidRegister _ => 2
  | .unknownOpcode _ => 3
  | .unsupportedOperation _ => 4

/-- `ERROR(kind, s.pc, info)`: the state with only its mode replaced. An error enters no handler, and there is no return from one
(40_execution_cycle.md R89; 60_exceptions.md R164, R170). -/
def State.raise (s : State) (e : Err) : State := { s with mode := .error e s.pc }

/-- The running flag (10_state.md R25, 90_conflicts.md C5): an error does not clear it. -/
def State.running (s : State) : Bool := s.mode != .halted

/-! ### The simple_alu (42_alu_dispatch.md R130) -/

/-- `ALU_ADD`: the sum modulo 256. -/
def aluAdd (a b : Byte) : Byte := BitVec.ofNat 8 ((a.toNat + b.toNat) % 256)

/-- `ALU_MUL`: the exact product. -/
def aluMul (a b : Byte) : Nat := a.toNat * b.toNat

/-! ### Output (10_state.md R27) -/

/-- `emit(v)`. -/
def State.emit (s : State) (v : Nat) : State := { s with out := s.out ++ [v] }

/-! ### The program_counter_next_logic (40_execution_cycle.md R86) -/

/-- `pc <- target`. -/
def State.setPc (s : State) (target : Pc) : State := { s with pc := target }

/-- `mode <- m`. -/
def State.setMode (s : State) (m : Mode) : State := { s with mode := m }

/-- `pc <- pc + width(ir)`, the sum in 9 bits; a mnemonic without a width leaves pc unchanged (40_execution_cycle.md R83, R86). -/
def State.advance (s : State) (m : Mnemonic) : State :=
  match s.params.width m with
  | some w => s.setPc (s.pc + BitVec.ofNat 9 w)
  | none => s

/-- A byte as a pc value: the target of CALL and RET (40_execution_cycle.md R86). -/
def pcOfByte (v : Byte) : Pc := v.setWidth 9

/-- CALL's return address `pc + 2`, under both width policies (42_alu_dispatch.md R133). Where CALL runs, pc is at most 253 and
the sum is a byte. -/
def State.returnAddress (s : State) : Byte := (s.pc + 2).setWidth 8

/-! ### The stack_pointer_logic (40_execution_cycle.md R87) -/

/-- `SP_DEC()`. -/
def State.spDec (s : State) : Except Err State :=
  if s.sp = 0 then .error (.outOfRange (-1)) else .ok (s.setSp (s.sp - 1))

/-- `SP_INC()`. -/
def State.spInc (s : State) : Except Err State :=
  if s.sp = 255 then .error (.outOfRange 256) else .ok (s.setSp (s.sp + 1))

/-- `Push(v)`, where `v` is computed from the state after the decrement (40_execution_cycle.md R87, 41_primary_dispatch.md R102). -/
def State.push (s : State) (v : State → Byte) : Except Err State := do
  let t ← s.spDec
  t.memWrite t.sp.toNat (v t)

/-- The byte at the top of the stack, `MemRead(x[7], 1)`. -/
def State.stackTop (s : State) : Except Err Byte := s.memRead s.sp.toNat

/-! ### The instruction_fetch_unit (40_execution_cycle.md R81, R89) -/

/-- The fetch of an instruction at pc, in the order of 40_execution_cycle.md R88: opcode range, unknown opcode, operand A range,
operand B range. The window is three bytes whatever the instruction's width. -/
def State.fetchInstr (s : State) : Except Err Instr := do
  let ir ← s.memRead s.pc.toNat
  match decodeOpcode s.params ir with
  | none => .error (.unknownOpcode ir)
  | some d =>
    let a ← s.memRead (s.pc.toNat + 1)
    let b ← s.memRead (s.pc.toNat + 2)
    .ok (d.op.withOperands a b)

/-- The range check of the fetch window, which every instruction's rule lists among its exceptions (41_primary_dispatch.md R100 to
R104, 42_alu_dispatch.md R131 to R134). `fetchInstr` has made the same check before `step` reaches an instruction: log entry 5. -/
def State.requireWindow (s : State) : Except Err Unit :=
  if 255 < s.pc.toNat then .error (.outOfRange s.pc.toNat)
  else if 255 < s.pc.toNat + 1 then .error (.outOfRange (s.pc.toNat + 1 : Nat))
  else if 255 < s.pc.toNat + 2 then .error (.outOfRange (s.pc.toNat + 2 : Nat))
  else .ok ()

/-! ### The commit (40_execution_cycle.md R89; 60_exceptions.md R164, R165) -/

/-- Commit a working copy, or discard it and record the error. -/
def State.commit (s : State) (m : Mnemonic) (r : Except Err State) : Result :=
  match r with
  | .ok t => .next { t with fl := flagsAfter m t.fl }
  | .error e => .next (s.raise e)

/-- Run the body of an instruction on a copy of the state, behind the fetch-window check. -/
def State.runBody (s : State) (m : Mnemonic) (body : Except Err State) : Result :=
  s.commit m (do s.requireWindow; body)

/-! ### The host loader (70_reset_and_hazards.md R183) -/

/-- Write bytes to rising addresses from `a`. -/
def Memory.writeBytes (m : Memory) (a : Nat) : List Byte → Memory
  | [] => m
  | b :: bs => Memory.writeBytes (m.write a b) (a + 1) bs

/-- The loader: b0, b1, ... into mem[0], mem[1], ...; an image of more than 256 bytes is outside the launch precondition. -/
def State.load (s : State) (image : List Byte) : Result :=
  if image.length ≤ Config.memSize then .next { s with mem := s.mem.writeBytes 0 image }
  else .refused (.imageTooLong image.length)

end Sys2Proof.Machine
end

