-- ==== Sys2Proof/Machine/AluGroup.lean ====
section
/-! DEFINITION. The ALU dispatcher's instructions ADD, MUL, CALL and RET (42_alu_dispatch.md R131 to R134), in the form of
Machine/Primary.lean. -/

namespace Sys2Proof.Machine

/-- ADD (42_alu_dispatch.md R131): index A is checked before index B, and both registers are read before the write. -/
def execAdd (a b : Byte) (s : State) : Result :=
  s.runBody .add do
    let ra ← regIndex a
    let rb ← regIndex b
    return (s.setReg ra (aluAdd (s.reg ra) (s.reg rb))).advance .add

/-- MUL (42_alu_dispatch.md R132): the product goes to the output channel and to no register. -/
def execMul (a b : Byte) (s : State) : Result :=
  s.runBody .mul do
    let ra ← regIndex a
    let rb ← regIndex b
    return (s.emit (aluMul (s.reg ra) (s.reg rb))).advance .mul

/-- CALL (42_alu_dispatch.md R133): the target is read after the push. -/
def execCall (a : Byte) (s : State) : Result :=
  s.runBody .call do
    let ra ← regIndex a
    let t ← s.push fun _ => s.returnAddress
    return t.setPc (pcOfByte (t.reg ra))

/-- RET (42_alu_dispatch.md R134): one increment only (90_conflicts.md C3). -/
def execRet (s : State) : Result :=
  s.runBody .ret do
    let v ← s.stackTop
    let t ← s.spInc
    return t.setPc (pcOfByte v)

end Sys2Proof.Machine
end

