-- ==== Sys2Proof/Machine/Primary.lean ====
section
/-! DEFINITION. The primary dispatcher's instructions LDI, PRN, PUSH, POP and HLT (41_primary_dispatch.md R100 to R104). Each
meaning is the instruction from its index checks to its commit, or to its error. No meaning reads the mode (10_state.md R25). -/

namespace Sys2Proof.Machine

/-- LDI (41_primary_dispatch.md R100). -/
def execLdi (a b : Byte) (s : State) : Result :=
  s.runBody .ldi do
    let ra ← regIndex a
    return (s.setReg ra b).advance .ldi

/-- PRN (41_primary_dispatch.md R101). -/
def execPrn (a : Byte) (s : State) : Result :=
  s.runBody .prn do
    let ra ← regIndex a
    return (s.emit (s.reg ra).toNat).advance .prn

/-- PUSH (41_primary_dispatch.md R102): `x[A]` is read after the decrement. -/
def execPush (a : Byte) (s : State) : Result :=
  s.runBody .push do
    let ra ← regIndex a
    let t ← s.push fun t => t.reg ra
    return t.advance .push

/-- POP (41_primary_dispatch.md R103): the increment reads `x[7]` after the write of `x[A]`. -/
def execPop (a : Byte) (s : State) : Result :=
  s.runBody .pop do
    let ra ← regIndex a
    let v ← s.stackTop
    let t ← (s.setReg ra v).spInc
    return t.advance .pop

/-- HLT (41_primary_dispatch.md R104): pc stays. -/
def execHlt (s : State) : Result :=
  s.runBody .hlt (return s.setMode .halted)

end Sys2Proof.Machine
end

