-- ==== Sys2Proof/Machine/Step.lean ====
section
/-! DEFINITION. One step of the engine (40_execution_cycle.md R80, R89), and the host's way to place an instruction. -/

namespace Sys2Proof.Machine

/-- The step: no step is defined from HALTED or ERROR (40_execution_cycle.md R80; log entry 4); while RUNNING, an instruction is
fetched and executed, or the fetch's error is recorded (R89). -/
def step (s : State) : Host.Outcome State Fault Refusal :=
  match s.mode with
  | .halted => .fault .haltedIsTerminal
  | .error e p => .fault (.errorIsTerminal e p)
  | .running =>
    match s.fetchInstr with
    | .error e => .next (s.raise e)
    | .ok i => exec i s

/-- The state with a table word's bytes at pc, pc + 1 and pc + 2, and the engine RUNNING, so that the next step runs it
(log entry 10). -/
def State.withFetchWord (s : State) (nbits w : Nat) : State :=
  { s with mem := s.mem.writeBytes s.pc.toNat ((tableBytes nbits w).take (Config.memSize - s.pc.toNat)), mode := .running }

end Sys2Proof.Machine
end

