-- ==== Sys2Proof/Safety.lean ====
section
/-! DEFINITION. The terms claims use: the terminal outcomes of a run and the invariant every step keeps. -/

namespace Sys2Proof.Machine

/-- The terminal outcomes the host reads (60_exceptions.md R167). A run that stays RUNNING is a hang and has none. -/
inductive RunEnd where
  | success
  | failure (e : Err) (pcAtFault : Pc)
  deriving DecidableEq, Repr

/-- The outcome of a run that stands in this state (60_exceptions.md R167, 70_reset_and_hazards.md R185). -/
def State.runEnd (s : State) : Option RunEnd :=
  match s.mode with
  | .running => none
  | .halted => some .success
  | .error e p => some (.failure e p)

/-- A safe state: its run has not failed (60_exceptions.md R167). -/
def State.safe (s : State) : Prop := ∀ e p, s.mode ≠ .error e p

/-- What an error record may say (60_exceptions.md R160, R161, R162, R163, R166). -/
def Err.legal (p : Params) : Err → Prop
  | .outOfRange addr => addr = -1 ∨ addr = 256
  | .invalidRegister operand => 8 ≤ operand.toNat
  | .unknownOpcode ir => ∀ m, p.opcode.byte m ≠ ir
  | .unsupportedOperation _ => False

/-- The invariant: memory in canonical form, pc in 0..256 (10_state.md R24), legal parameters (00_scope.md R6), every emitted value
at most 65025 (10_state.md R27), and an error record that is legal and holds the address of the faulting opcode
(60_exceptions.md R160). -/
structure State.Inv (s : State) : Prop where
  memory : s.mem.wf
  pcRange : s.pc.toNat ≤ 256
  parameters : s.params.wf
  output : ∀ v ∈ s.out, v ≤ 65025
  errorRecord : ∀ e p, s.mode = .error e p → e.legal s.params ∧ p = s.pc

end Sys2Proof.Machine
end

