-- ==== Sys2Proof/Certificates/Slice0/Obligations.lean ====
section
/-! DEFINITION. The statements for the provers, and the few words they are written in. The statements about results write the
next state out field by field from the spec's pseudocode; they do not call the model's own register, stack and pc operations. -/

open Sys2Proof Sys2Proof.Machine

namespace Sys2Proof.Claims

/-- The outcome of an error: the state with only its mode replaced by `ERROR(kind, pc, info)` (60_exceptions.md R164). -/
def failed (s : State) (e : Err) : Result := .next { s with mode := .error e s.pc }

/-- `x[7]`, the stack pointer. -/
def sp (s : State) : Byte := s.regs[7]

/-- The opcode byte at pc. -/
def opcodeByte (s : State) : Byte := s.mem.read s.pc.toNat

/-- The fetch window fits in memory, and its three bytes decode to `i`. -/
def Fetched (s : State) (i : Instr) : Prop :=
  s.pc.toNat ≤ 253 ∧ ∃ rest,
    decode s.params [s.mem.read s.pc.toNat, s.mem.read (s.pc.toNat + 1), s.mem.read (s.pc.toNat + 2)] = .ok (i, rest)

/-- The reads column of 10_state.md R22. -/
def readsRegisters : Instr → List Nat
  | .ldi _ _ => []
  | .prn a => [a.toNat]
  | .push a => [7, a.toNat]
  | .pop _ => [7]
  | .hlt => []
  | .add a b => [a.toNat, b.toNat]
  | .mul a b => [a.toNat, b.toNat]
  | .call a => [7, a.toNat]
  | .ret => [7]

/-- The writes column of 10_state.md R22. -/
def writesRegisters : Instr → List Nat
  | .ldi a _ => [a.toNat]
  | .prn _ => []
  | .push _ => [7]
  | .pop a => [a.toNat, 7]
  | .hlt => []
  | .add a _ => [a.toNat]
  | .mul _ _ => []
  | .call _ => [7]
  | .ret => [7]

/-- Execute instructions one after the other, each on the state the one before left, wherever they stand in memory. -/
def execAll : List Instr → State → Option State
  | [], s => some s
  | i :: is, s =>
    match exec i s with
    | .next t => execAll is t
    | _ => none

end Sys2Proof.Claims

open Sys2Proof.Claims

/-! ### Decoding and encoding -/

/-- Decoding the bytes of an instruction gives it back with every operand byte, whatever follows, for every legal `OPCODE`
(30_encoding.md, sections 1 to 3). -/
def Obligations.DecodeInvertsEncode : Prop :=
  ∀ p : Params, p.wf → ∀ (i : Instr) (rest : List Byte), decode p (encode p i ++ rest) = .ok (i, rest)

/-- The other direction: bytes that decode are the encoding of what they decode to, so each encoding has one meaning. -/
def Obligations.DecodedBytesAreTheirEncoding : Prop :=
  ∀ (p : Params) (bs rest : List Byte) (i : Instr), decode p bs = .ok (i, rest) → bs = encode p i ++ rest

/-- Words written out from the opcode column of 30_encoding.md R62, one for each mnemonic, under the default parameters. The opcode
values are PRESUMED by the spec itself (93_implementation_defined.md G1, log entry 2). -/
def Obligations.SpecWordsDecode : Prop :=
  decode Params.default [0b00000001#8, 0xFF#8, 0xFF#8] = .ok (.hlt, [0xFF#8, 0xFF#8]) ∧
  decode Params.default [0b00010001#8, 0xFF#8, 0xFF#8] = .ok (.ret, [0xFF#8, 0xFF#8]) ∧
  decode Params.default [0b01000101#8, 0x02#8, 0xFF#8] = .ok (.push 0x02#8, [0xFF#8]) ∧
  decode Params.default [0b01000110#8, 0x07#8, 0xFF#8] = .ok (.pop 0x07#8, [0xFF#8]) ∧
  decode Params.default [0b01000111#8, 0x09#8, 0xFF#8] = .ok (.prn 0x09#8, [0xFF#8]) ∧
  decode Params.default [0b01010000#8, 0x01#8, 0xFF#8] = .ok (.call 0x01#8, [0xFF#8]) ∧
  decode Params.default [0b10000010#8, 0x03#8, 0xFF#8] = .ok (.ldi 0x03#8 0xFF#8, []) ∧
  decode Params.default [0b10100000#8, 0x07#8, 0x01#8] = .ok (.add 0x07#8 0x01#8, []) ∧
  decode Params.default [0b10100010#8, 0x00#8, 0x0A#8] = .ok (.mul 0x00#8 0x0A#8, []) ∧
  decode Params.default [0x83#8, 0x00#8, 0x00#8] = .error (.unknownOpcode 0x83#8)

/-- 30_encoding.md R61: the three formats, each operand at its offset from the opcode byte and whole, for every legal `OPCODE`. -/
def Obligations.FormatsPlaceOperandsAtOffsets : Prop :=
  ∀ p : Params, p.wf → ∀ (a b : Byte) (rest : List Byte),
    decode p (p.opcode.hlt :: rest) = .ok (.hlt, rest) ∧
    decode p (p.opcode.ret :: rest) = .ok (.ret, rest) ∧
    decode p (p.opcode.prn :: a :: rest) = .ok (.prn a, rest) ∧
    decode p (p.opcode.push :: a :: rest) = .ok (.push a, rest) ∧
    decode p (p.opcode.pop :: a :: rest) = .ok (.pop a, rest) ∧
    decode p (p.opcode.call :: a :: rest) = .ok (.call a, rest) ∧
    decode p (p.opcode.ldi :: a :: b :: rest) = .ok (.ldi a b, rest) ∧
    decode p (p.opcode.add :: a :: b :: rest) = .ok (.add a b, rest) ∧
    decode p (p.opcode.mul :: a :: b :: rest) = .ok (.mul a b, rest)

/-- The decoded record of every mnemonic (40_execution_cycle.md, section 1): operand count, width, dispatcher and the four control
bits. The width policy is the spec's decision D2: uniform 3 and reference 2 for MUL, no reference width for HLT. -/
def Obligations.DecoderRecordTable : Prop :=
  ∀ p : Params, p.wf →
    decodeOpcode p p.opcode.hlt =
      some ⟨.hlt, 0, if p.widthPolicy = .uniform then some 1 else none, .primary, false, false, false, true⟩ ∧
    decodeOpcode p p.opcode.ret = some ⟨.ret, 0, some 1, .alu, false, false, true, false⟩ ∧
    decodeOpcode p p.opcode.push = some ⟨.push, 1, some 2, .primary, true, false, false, false⟩ ∧
    decodeOpcode p p.opcode.pop = some ⟨.pop, 1, some 2, .primary, true, false, false, false⟩ ∧
    decodeOpcode p p.opcode.prn = some ⟨.prn, 1, some 2, .primary, true, false, false, false⟩ ∧
    decodeOpcode p p.opcode.call = some ⟨.call, 1, some 2, .alu, true, false, true, false⟩ ∧
    decodeOpcode p p.opcode.ldi = some ⟨.ldi, 2, some 3, .primary, true, false, false, false⟩ ∧
    decodeOpcode p p.opcode.add = some ⟨.add, 2, some 3, .alu, true, true, false, false⟩ ∧
    decodeOpcode p p.opcode.mul =
      some ⟨.mul, 2, some (if p.widthPolicy = .uniform then 3 else 2), .alu, true, true, false, false⟩

/-- 30_encoding.md R65 and 60_exceptions.md R163: the whole byte is matched, 247 byte values are illegal, and fetching one raises
`UnknownOpcodeError` with the byte, changes nothing but the mode, and ends the run. -/
def Obligations.UnknownOpcodeIsFatal : Prop :=
  ∀ p : Params, p.wf →
    (∀ (ir : Byte) (m : Mnemonic), (decodeOpcode p ir).map Decoded.op = some m ↔ p.opcode.byte m = ir) ∧
    ((List.range 256).filter fun n => (decodeOpcode p (BitVec.ofNat 8 n)).isNone).length = 247 ∧
    (∀ s : State, s.params = p → s.mode = .running → s.pc.toNat ≤ 255 → (∀ m, p.opcode.byte m ≠ opcodeByte s) →
      step s = failed s (.unknownOpcode (opcodeByte s)) ∧
      ∀ t, step s = .next t → ∀ u, step t ≠ .next u)

/-! ### The step -/

/-- A step runs the decoded instruction (40_execution_cycle.md, section 4). -/
def Obligations.StepRunsFetchedInstruction : Prop :=
  ∀ (s : State) (i : Instr), s.mode = .running → Fetched s i → step s = exec i s

/-- The errors of the fetch, in the order of 40_execution_cycle.md, section 4: opcode range, unknown opcode, operand range. The
range of pc, the window at the top of memory and the order are the spec's decisions D4, D8 and D19. -/
def Obligations.FetchErrorsInOrder : Prop :=
  ∀ s : State, s.mode = .running →
    (255 < s.pc.toNat → step s = failed s (.outOfRange s.pc.toNat)) ∧
    (s.pc.toNat ≤ 255 → (∀ m, s.params.opcode.byte m ≠ opcodeByte s) → step s = failed s (.unknownOpcode (opcodeByte s))) ∧
    (s.pc.toNat = 254 ∨ s.pc.toNat = 255 → (∃ m, s.params.opcode.byte m = opcodeByte s) → step s = failed s (.outOfRange 256))

/-- 40_execution_cycle.md R80: a step from RUNNING executes one instruction and stays RUNNING, or is HLT and becomes HALTED, or
commits nothing and becomes ERROR; there is no step from HALTED or ERROR. -/
def Obligations.StepEndsInOneOfThreeWays : Prop :=
  ∀ s : State,
    (s.mode = .running → ∃ t, step s = .next t ∧
      ((∃ i, Fetched s i ∧ i ≠ .hlt ∧ exec i s = .next t ∧ t.mode = .running) ∨
       (Fetched s .hlt ∧ exec .hlt s = .next t ∧ t.mode = .halted) ∨
       (∃ e, t = { s with mode := .error e s.pc }))) ∧
    (s.mode ≠ .running → ∀ t, step s ≠ .next t)

/-- 60_exceptions.md R173: HALTED is entered by HLT and by nothing else, and nothing wakes the CORE from it. -/
def Obligations.HaltedOnlyByHltAndForever : Prop :=
  ∀ s : State,
    (s.mode = .running → Fetched s .hlt → ∃ t, step s = .next t ∧ t.mode = .halted) ∧
    (∀ t, step s = .next t → t.mode = .halted → s.mode = .running ∧ Fetched s .hlt) ∧
    (s.mode = .halted → ∀ t, step s ≠ .next t)

/-- No step leaves HALTED or ERROR: the model answers a fault that names the mode; the run ends in success or failure, and only HALTED
clears the running flag. The fault's form is the model's choice (log entry 4); that no step is defined is 40_execution_cycle.md,
section 1; success and failure are the spec's decisions D9 and D20. -/
def Obligations.TerminalModesFaultByName : Prop :=
  ∀ s : State,
    (s.mode = .halted → step s = .fault .haltedIsTerminal ∧ s.runEnd = some .success ∧ s.running = false) ∧
    (∀ e p, s.mode = .error e p →
      step s = .fault (.errorIsTerminal e p) ∧ s.runEnd = some (.failure e p) ∧ s.running = true)

/-! ### Reset, load and the invariant -/

/-- The reset state (10_state.md, section 6). The mode, `fl` and `out` rest on the spec's decisions D23, D12 and D10; the
parameters' values are the spec's defaults, D1 and D2 (log entries 2 and 3). -/
def Obligations.ResetValues : Prop :=
  (∀ a, State.reset.mem.read a = 0) ∧
  (∀ (i : Nat) (h : i < 8), State.reset.regs[i] = if i = 7 then 0xF4 else 0) ∧
  State.reset.pc = 0 ∧ State.reset.mode = .running ∧ State.reset.fl = 0 ∧ State.reset.out = [] ∧
  State.reset.params = { opcode := OpcodeMap.ls8, widthPolicy := .uniform }

/-- The invariant of Safety.lean holds at reset. -/
def Obligations.ResetMeetsInvariant : Prop := State.reset.Inv

/-- Every step keeps the invariant: canonical memory, pc in 0..256, legal parameters, emitted values at most 65025, and an error
record that is legal and holds the faulting opcode's address. The range of pc is the spec's decision D4, the range of the emitted
values D10, the error record D20. -/
def Obligations.StepKeepsInvariant : Prop :=
  ∀ s t : State, s.Inv → step s = .next t → t.Inv

/-- The loader puts the image at 0, 1, 2, ... and leaves the rest at the reset values; an image over 256 bytes is refused
(70_reset_and_hazards.md, section 2; the bound is the spec's decision D24). -/
def Obligations.LoaderPlacesImage : Prop :=
  ∀ image : List Byte,
    (image.length ≤ 256 → ∃ t, State.reset.load image = .next t ∧ t.Inv ∧
      (∀ a, t.mem.read a = image.getD a 0) ∧ t = { State.reset with mem := t.mem }) ∧
    (256 < image.length → State.reset.load image = .refused (.imageTooLong image.length))

/-! ### What each instruction does when it completes -/

/-- LDI writes the immediate into the register, register 7 included (41_primary_dispatch.md, LDI). That it needs pc ≤ 253 is the
spec's decision D8. -/
def Obligations.LdiWritesImmediate : Prop :=
  ∀ (a b : Byte) (s : State) (ha : a.toNat < 8), s.params.wf → s.pc.toNat ≤ 253 →
    exec (.ldi a b) s = .next { s with regs := s.regs.set a.toNat b ha, pc := s.pc + 3 }

/-- PRN appends the register's value to the output (41_primary_dispatch.md, PRN). pc ≤ 253 is D8; the number form of the output
is D10. -/
def Obligations.PrnEmitsRegister : Prop :=
  ∀ (a : Byte) (s : State) (_ha : a.toNat < 8), s.params.wf → s.pc.toNat ≤ 253 →
    exec (.prn a) s = .next { s with out := s.out ++ [(s.regs[a.toNat]).toNat], pc := s.pc + 2 }

/-- PUSH decrements the stack pointer and stores the register at the new top; PUSH R7 stores the decremented stack pointer
(41_primary_dispatch.md, PUSH). The R7 order is the spec's decision D7, the condition on the stack pointer D6, on pc D8. -/
def Obligations.PushStoresRegister : Prop :=
  ∀ (a : Byte) (s : State) (_ha : a.toNat < 8), s.params.wf → s.pc.toNat ≤ 253 → sp s ≠ 0 →
    exec (.push a) s = .next { s with
      regs := s.regs.set 7 (sp s - 1),
      mem := s.mem.write (sp s - 1).toNat (if a = 7 then sp s - 1 else s.regs[a.toNat]),
      pc := s.pc + 2 }

/-- POP loads the top of stack and then increments `x[7]` as the load left it; POP R7 ends with the popped value plus one
(41_primary_dispatch.md, POP). The R7 order is D7, the condition on the incremented value D6, on pc D8. -/
def Obligations.PopLoadsRegister : Prop :=
  ∀ (a : Byte) (s : State) (ha : a.toNat < 8), s.params.wf → s.pc.toNat ≤ 253 →
    let regs := s.regs.set a.toNat (s.mem.read (sp s).toNat) ha
    regs[7] ≠ 255 → exec (.pop a) s = .next { s with regs := regs.set 7 (regs[7] + 1), pc := s.pc + 2 }

/-- HLT stops the engine and changes nothing else; the run ends in success (41_primary_dispatch.md, HLT). That pc stays and that
HALTED is success are the spec's decision D9, pc ≤ 253 is D8. -/
def Obligations.HltStopsEngine : Prop :=
  ∀ s : State, s.pc.toNat ≤ 253 →
    exec .hlt s = .next { s with mode := .halted } ∧ State.runEnd { s with mode := .halted } = some .success

/-- ADD writes the sum modulo 256 into the first register, both operands read before the write (42_alu_dispatch.md, ADD). The wrap
is the spec's decision D3, pc ≤ 253 is D8. -/
def Obligations.AddWritesSum : Prop :=
  ∀ (a b : Byte) (s : State) (ha : a.toNat < 8) (_hb : b.toNat < 8), s.params.wf → s.pc.toNat ≤ 253 →
    exec (.add a b) s = .next { s with
      regs := s.regs.set a.toNat (BitVec.ofNat 8 (((s.regs[a.toNat]).toNat + (s.regs[b.toNat]).toNat) % 256)) ha,
      pc := s.pc + 3 }

/-- MUL appends the exact product to the output and writes no register; pc advances by the width policy (42_alu_dispatch.md, MUL).
The product's form is the spec's decision D10, that no register is written D11, the policy D2, pc ≤ 253 D8. -/
def Obligations.MulEmitsProduct : Prop :=
  ∀ (a b : Byte) (s : State) (_ha : a.toNat < 8) (_hb : b.toNat < 8), s.params.wf → s.pc.toNat ≤ 253 →
    exec (.mul a b) s = .next { s with
      out := s.out ++ [(s.regs[a.toNat]).toNat * (s.regs[b.toNat]).toNat],
      pc := s.pc + (if s.params.widthPolicy = .uniform then 3 else 2) }

/-- CALL pushes the return address pc + 2 and jumps to the register, read after the push: CALL R7 jumps to the decremented stack
pointer (42_alu_dispatch.md, CALL). The return address is the spec's decision D26, the R7 order D7, the conditions D6 and D8. -/
def Obligations.CallPushesAndJumps : Prop :=
  ∀ (a : Byte) (s : State) (_ha : a.toNat < 8), s.pc.toNat ≤ 253 → sp s ≠ 0 →
    exec (.call a) s = .next { s with
      regs := s.regs.set 7 (sp s - 1),
      mem := s.mem.write (sp s - 1).toNat (BitVec.ofNat 8 (s.pc.toNat + 2)),
      pc := BitVec.ofNat 9 (if a = 7 then sp s - 1 else s.regs[a.toNat]).toNat }

/-- RET pops the return address into pc, with one increment of the stack pointer (42_alu_dispatch.md, RET; 90_conflicts.md C3). The
conditions are the spec's decisions D6 and D8. -/
def Obligations.RetPopsPc : Prop :=
  ∀ s : State, s.pc.toNat ≤ 253 → sp s ≠ 255 →
    exec .ret s = .next { s with
      regs := s.regs.set 7 (sp s + 1), pc := BitVec.ofNat 9 (s.mem.read (sp s).toNat).toNat }

/-! ### Errors -/

/-- Every instruction, HLT and RET included, raises `OutOfRangeError` where its three-byte window does not fit, with the first
address out of range, and changes nothing but the mode. This is about `exec` alone, at a pc that `step` never runs an instruction at:
that a meaning makes the window check of its rule again is the model's choice (DESIGN CHOICE, log entry 5), and pc 257 to 511 are
values no run reaches (DEDUCED, log entry 7). The errors themselves are the spec's decisions D4 and D8. -/
def Obligations.WindowErrorInEveryInstruction : Prop :=
  ∀ (i : Instr) (s : State), 253 < s.pc.toNat →
    exec i s = failed s (.outOfRange (if 255 < s.pc.toNat then (s.pc.toNat : Int) else 256))

/-- Which instruction ends in `InvalidRegisterError`, on which operand byte, and which never does, at every pc: HLT and RET never, LDI
never on B. Any next state with that error is the old one with only the mode replaced. That the window's error comes before the index
error (so pc ≤ 253 on the right) and A's before B's is the spec's decision D19 (log entry 16), that the window must fit at all D8 (log
entry 17, the check within `exec` log entry 5), that only the mode changes D5 (log entry 14). -/
def Obligations.InvalidRegisterExactly : Prop :=
  ∀ (i : Instr) (s : State) (v : Byte), s.mode = .running →
    ((∃ t p, exec i s = .next t ∧ t.mode = .error (.invalidRegister v) p) ↔
      s.pc.toNat ≤ 253 ∧
      match i with
      | .hlt | .ret => False
      | .ldi a _ | .prn a | .push a | .pop a | .call a => 8 ≤ a.toNat ∧ v = a
      | .add a b | .mul a b => (8 ≤ a.toNat ∧ v = a) ∨ (a.toNat < 8 ∧ 8 ≤ b.toNat ∧ v = b)) ∧
    (∀ t p, exec i s = .next t → t.mode = .error (.invalidRegister v) p → exec i s = failed s (.invalidRegister v))

/-- The stack-pointer errors: a push at 0 raises `OutOfRangeError(-1)`, an increment from 255 raises `OutOfRangeError(256)`, and
nothing is written (40_execution_cycle.md, section 3; the spec's decision D6, for POP R7 with D7). -/
def Obligations.StackPointerErrors : Prop :=
  ∀ (a : Byte) (s : State) (ha : a.toNat < 8), s.pc.toNat ≤ 253 →
    (sp s = 0 → exec (.push a) s = failed s (.outOfRange (-1)) ∧ exec (.call a) s = failed s (.outOfRange (-1))) ∧
    ((s.regs.set a.toNat (s.mem.read (sp s).toNat) ha)[7] = 255 → exec (.pop a) s = failed s (.outOfRange 256)) ∧
    (sp s = 255 → exec .ret s = failed s (.outOfRange 256))

/-- The causes of `OutOfRangeError`, exactly, with the `info` of each (60_exceptions.md, section 1; the spec's decisions D4, D6, D7
and D8). -/
def Obligations.OutOfRangeCauses : Prop :=
  ∀ (s : State) (x : Int), s.mode = .running →
    ((∃ t p, step s = .next t ∧ t.mode = .error (.outOfRange x) p) ↔
      (255 < s.pc.toNat ∧ x = s.pc.toNat) ∨
      (253 < s.pc.toNat ∧ s.pc.toNat ≤ 255 ∧ (∃ m, s.params.opcode.byte m = opcodeByte s) ∧ x = 256) ∨
      ((∃ a : Byte, a.toNat < 8 ∧ (Fetched s (.push a) ∨ Fetched s (.call a))) ∧ sp s = 0 ∧ x = -1) ∨
      ((∃ (a : Byte) (ha : a.toNat < 8), Fetched s (.pop a) ∧
        (s.regs.set a.toNat (s.mem.read (sp s).toNat) ha)[7] = 255) ∧ x = 256) ∨
      (Fetched s .ret ∧ sp s = 255 ∧ x = 256))

/-- Errors are precise: the state after one is the state before it with only the mode replaced, and the mode records the faulting
opcode's address; `UnsupportedOperationError` never occurs (60_exceptions.md, sections 1 and 2; the spec's decisions D5, D20 and
D21). -/
def Obligations.ErrorsArePrecise : Prop :=
  ∀ (s t : State) (e : Err) (p : Pc), step s = .next t → t.mode = .error e p →
    t = { s with mode := .error e s.pc } ∧ p = s.pc ∧ ∀ m, e ≠ .unsupportedOperation m

/-! ### Frames -/

/-- The frame of the seven instructions that store nothing: every memory byte, `fl` and the parameters are unchanged, and so are the
registers (but for LDI's, ADD's and POP's `x[A]`, and `x[7]` of POP and RET), the output (but for what PRN and MUL append) and the
mode (but for HLT, and for an error). -/
def Obligations.NonStoringFrame : Prop :=
  ∀ (i : Instr) (s t : State), (∀ a, i ≠ .push a ∧ i ≠ .call a) → exec i s = .next t →
    (∀ x, t.mem.read x = s.mem.read x) ∧ t.fl = s.fl ∧ t.params = s.params ∧
    (∀ (r : Nat) (h : r < 8), r ∉ writesRegisters i → t.regs[r] = s.regs[r]) ∧
    ((∀ a b, i ≠ .prn a ∧ i ≠ .mul a b) → t.out = s.out) ∧
    (i ≠ .hlt → t.mode = s.mode ∨ ∃ e, t = { s with mode := .error e s.pc })

/-- The frame of PUSH and CALL: the one byte stored is at the decremented stack pointer, and every other byte of memory, every
register but `x[7]`, `fl`, the output and the parameters are unchanged; so is the mode, but for an error, which stores nothing. -/
def Obligations.StoringFrame : Prop :=
  ∀ (i : Instr) (s t : State), (∃ a, i = .push a ∨ i = .call a) → exec i s = .next t →
    (∀ x, x ≠ (sp s - 1).toNat → t.mem.read x = s.mem.read x) ∧ t.fl = s.fl ∧ t.params = s.params ∧ t.out = s.out ∧
    (∀ (r : Nat) (h : r < 8), r ≠ 7 → t.regs[r] = s.regs[r]) ∧
    (t.mode = s.mode ∨ ∃ e, t = { s with mode := .error e s.pc })

/-- 10_state.md R22: an instruction writes only the registers of its writes column, its outcome depends only on those of its reads
column, and every register 0..7 is a legal operand. The second part compares two runs that differ in one register that is not
read: where the instruction commits a write to it the outcomes agree, and otherwise they differ in that register alone. -/
def Obligations.RegistersReadAndWritten : Prop :=
  ∀ (i : Instr) (s t : State), s.mode = .running → exec i s = .next t →
    (∀ (r : Nat) (h : r < 8), r ∉ writesRegisters i → t.regs[r] = s.regs[r]) ∧
    (∀ (r : Nat) (h : r < 8) (v : Byte), r ∉ readsRegisters i →
      ((r ∈ writesRegisters i ∧ ∀ e p, t.mode ≠ .error e p) →
        exec i { s with regs := s.regs.set r v } = .next t) ∧
      (r ∉ writesRegisters i ∨ (∃ e p, t.mode = .error e p) →
        exec i { s with regs := s.regs.set r v } = .next { t with regs := t.regs.set r v })) ∧
    (i.wf → ∀ v p, t.mode ≠ .error (.invalidRegister v) p)

/-! ### Whole-machine rules -/

/-- 20_memory.md R43: a step writes no byte but the one at sp − 1, and that only in PUSH and CALL; it reads no byte but its fetch
window and, in POP and RET, the one at sp; and the loader writes no byte past its image. -/
def Obligations.MemoryAccessesOfAStep : Prop :=
  (∀ s t : State, step s = .next t →
    (∀ x, t.mem.read x ≠ s.mem.read x →
      (∃ a, Fetched s (.push a) ∨ Fetched s (.call a)) ∧ 0 < (sp s).toNat ∧ x = (sp s).toNat - 1) ∧
    (s.mem.wf → ∀ (x : Nat) (v : Byte), x ≤ 255 →
      x ≠ s.pc.toNat → x ≠ s.pc.toNat + 1 → x ≠ s.pc.toNat + 2 →
      (x = (sp s).toNat → ¬ Fetched s .ret ∧ ∀ a, ¬ Fetched s (.pop a)) →
      ∃ t', step { s with mem := s.mem.write x v } = .next t' ∧ t' = { t with mem := t'.mem } ∧
        ∀ y, y ≠ x → t'.mem.read y = t.mem.read y)) ∧
  (∀ (s t : State) (image : List Byte), s.load image = .next t → ∀ y, image.length ≤ y → t.mem.read y = s.mem.read y)

/-- No instruction reads or writes `fl`, and none changes the parameters: a step from a state with another `fl` ends in the same
state with that `fl` (10_state.md, section 3). That the parameters are a field of State is the model's choice (log entry 1). -/
def Obligations.FlagRegisterIsInert : Prop :=
  ∀ s t : State, step s = .next t →
    t.fl = s.fl ∧ t.params = s.params ∧ ∀ v : Byte, step { s with fl := v } = .next { t with fl := v }

/-- The output only grows, by one value, and only in PRN (a register) and MUL (a product); no instruction reads it
(10_state.md, section 3; the numbers are the spec's decision D10). -/
def Obligations.OutputGrowsByPrnAndMulOnly : Prop :=
  ∀ s t : State, step s = .next t →
    (t.out = s.out ∨
      (∃ (a : Byte) (_ha : a.toNat < 8), Fetched s (.prn a) ∧ t.out = s.out ++ [(s.regs[a.toNat]).toNat]) ∨
      (∃ (a b : Byte) (_ha : a.toNat < 8) (_hb : b.toNat < 8), Fetched s (.mul a b) ∧
        t.out = s.out ++ [(s.regs[a.toNat]).toNat * (s.regs[b.toNat]).toNat])) ∧
    (∀ l : List Nat, step { s with out := l } = .next { t with out := l ++ t.out.drop s.out.length })

/-- Under the uniform policy a committed step other than CALL, RET and HLT advances pc by the instruction's whole length, which is
2 or 3, so pc strictly increases (40_execution_cycle.md, section 4, derived there; the policy is D2). -/
def Obligations.PcAdvancesByInstructionLength : Prop :=
  ∀ s t : State, s.params.wf → s.params.widthPolicy = .uniform → step s = .next t → t.mode = .running →
    (∀ a, ¬ Fetched s (.call a)) → ¬ Fetched s .ret →
    ∃ i, Fetched s i ∧ t.pc.toNat = s.pc.toNat + (encode s.params i).length ∧
      ((encode s.params i).length = 2 ∨ (encode s.params i).length = 3)

/-- A run from pc = 0 with no CALL and no RET commits at most 127 steps, under either width policy (40_execution_cycle.md,
section 4, where the derived bound is 127 steps and one HLT, so 128: a HLT after 127 two-byte steps would stand at 254 and fault). -/
def Obligations.RunWithoutCallOrRetIsBounded : Prop :=
  ∀ (f : Nat → State) (n : Nat), (f 0).params.wf → (f 0).pc = 0 →
    (∀ k, k < n → step (f k) = .next (f (k + 1)) ∧ (f (k + 1)).safe ∧
      (∀ a, ¬ Fetched (f k) (.call a)) ∧ ¬ Fetched (f k) .ret) →
    n ≤ 127

/-- PUSHes followed by POPs of the same registers in reverse order restore every register, the stack pointer included, for any
number within the stack's capacity and with register 7 among them too (41_primary_dispatch.md, the stack laws, derived there; the
R7 cases rest on D7). The instructions stand one after the other below the top of memory (D8). -/
def Obligations.PushesThenPopsRestoreRegisters : Prop :=
  ∀ (rs : List Byte) (s : State), s.mem.wf → s.params.wf → (∀ a ∈ rs, a.toNat < 8) →
    rs.length ≤ (sp s).toNat → s.pc.toNat + 4 * rs.length ≤ 255 →
    ∃ u, execAll (rs.map Instr.push ++ rs.reverse.map Instr.pop) s = some u ∧
      u.regs = s.regs ∧ u.mode = s.mode ∧ u.out = s.out ∧ u.pc.toNat = s.pc.toNat + 4 * rs.length ∧
      ∀ x, (sp s).toNat ≤ x → u.mem.read x = s.mem.read x

/-- PUSH Ra and then POP Rb, neither register 7, copies `x[a]` into `x[b]`, restores the stack pointer and leaves the pushed byte in
memory (41_primary_dispatch.md, the stack laws, derived there). -/
def Obligations.PushThenPopCopies : Prop :=
  ∀ (a b : Byte) (s : State) (_ha : a.toNat < 7) (hb : b.toNat < 7), s.mem.wf → s.params.wf →
    s.pc.toNat ≤ 251 → sp s ≠ 0 →
    execAll [.push a, .pop b] s = some { s with
      regs := s.regs.set b.toNat s.regs[a.toNat],
      mem := s.mem.write (sp s - 1).toNat s.regs[a.toNat],
      pc := s.pc + 4 }

/-- CALL and, whatever runs in between, a RET that finds the stack pointer and the return address as CALL left them, returns to
pc + 2 with the stack pointer of before the CALL (42_alu_dispatch.md, section 3, derived there; pc + 2 is D26). -/
def Obligations.CallThenRetReturns : Prop :=
  ∀ (a : Byte) (s : State), a.toNat < 8 → s.mem.wf → s.pc.toNat ≤ 253 → sp s ≠ 0 →
    ∃ t, exec (.call a) s = .next t ∧ sp t = sp s - 1 ∧
      ∀ u : State, u.pc.toNat ≤ 253 → sp u = sp t → u.mem.read (sp t).toNat = t.mem.read (sp t).toNat →
        ∃ w, exec .ret u = .next w ∧ w.pc.toNat = s.pc.toNat + 2 ∧ sp w = sp s

/-- A fetch sees the store of the step before it: after a committed PUSH or CALL, of any register, every byte of the next window is the
stored byte where the window meets the stored address sp − 1, as an opcode byte or an operand byte, and the byte of before elsewhere;
and the next step runs what these bytes decode to, or raises `UnknownOpcodeError` with the first of them (20_memory.md, section 5).
That the fetch is coherent is the spec's decision D15, the byte that PUSH R7 stores D7, CALL's return address D26, the window D8. -/
def Obligations.FetchSeesEarlierStore : Prop :=
  ∀ (a : Byte) (s t : State) (v : Byte) (_ha : a.toNat < 8), s.mem.wf → step s = .next t → t.mode = .running →
    (Fetched s (.push a) ∧ v = (if a = 7 then sp s - 1 else s.regs[a.toNat])) ∨
      (Fetched s (.call a) ∧ v = BitVec.ofNat 8 (s.pc.toNat + 2)) →
    let window := fun k => if t.pc.toNat + k = (sp s - 1).toNat then v else s.mem.read (t.pc.toNat + k)
    (∀ k, k < 3 → t.mem.read (t.pc.toNat + k) = window k) ∧
    (t.pc.toNat ≤ 253 → ∀ i rest, decode t.params [window 0, window 1, window 2] = .ok (i, rest) → step t = exec i t) ∧
    (t.pc.toNat ≤ 255 → (∀ m, t.params.opcode.byte m ≠ window 0) → step t = failed t (.unknownOpcode (window 0)))
end

