-- ==== Sys2Proof/Laws/Memory.lean ====
section
/-! SUPPORT. The memory's laws: reads after writes, and every operation keeps the canonical form. -/

namespace Sys2Proof.Machine

@[simp] theorem Memory.read_nil (a : Nat) : Memory.read [] a = Config.blankByte := rfl

theorem Memory.read_cons (b : Nat) (w : Byte) (m : Memory) (a : Nat) :
    Memory.read ((b, w) :: m) a = if a = b then w else Memory.read m a := rfl

/-- An address below every listed one reads as blank. -/
theorem Memory.read_blank {m : Memory} {a : Nat} (h : ∀ c ∈ m, a < c.1) : m.read a = Config.blankByte := by
  induction m with
  | nil => rfl
  | cons c m ih =>
    obtain ⟨b, w⟩ := c
    have hb : a < b := h (b, w) (by simp)
    have ht := ih fun c hc => h c (by simp [hc])
    rw [Memory.read_cons, if_neg (by omega), ht]

/-- A write leaves every other address alone, in every memory. -/
theorem Memory.read_write_other (m : Memory) {a x : Nat} (v : Byte) (h : x ≠ a) : (m.write a v).read x = m.read x := by
  induction m with
  | nil => unfold Memory.write; split <;> simp [Memory.read_cons, h]
  | cons c m ih =>
    obtain ⟨b, w⟩ := c
    unfold Memory.write
    split_ifs with h1 h2 h3 h4
    · rfl
    · simp [Memory.read_cons, h]
    · subst h3; simp [Memory.read_cons, h]
    · subst h3; simp [Memory.read_cons, h]
    · simp [Memory.read_cons, ih]

/-- A read after a write to the same address gives the written byte. -/
theorem Memory.read_write_same {m : Memory} (hm : m.Pairwise (fun c d => c.1 < d.1)) (a : Nat) (v : Byte) :
    (m.write a v).read a = v := by
  induction m with
  | nil => unfold Memory.write; split <;> simp_all [Memory.read_cons]
  | cons c m ih =>
    obtain ⟨b, w⟩ := c
    obtain ⟨hb, ht⟩ := List.pairwise_cons.mp hm
    unfold Memory.write
    split_ifs with h1 h2 h3 h4
    · rw [h2, Memory.read_blank]
      intro c hc
      rcases List.mem_cons.mp hc with rfl | hc
      · exact h1
      · exact Nat.lt_trans h1 (hb c hc)
    · simp [Memory.read_cons]
    · rw [h4, h3, Memory.read_blank fun c hc => hb c hc]
    · simp [Memory.read_cons]
    · rw [Memory.read_cons, if_neg h3, ih ht]

/-- Read after write, in one equation. -/
theorem Memory.read_write {m : Memory} (hm : m.wf) (a x : Nat) (v : Byte) :
    (m.write a v).read x = if x = a then v else m.read x := by
  split_ifs with h
  · rw [h, Memory.read_write_same hm.1]
  · exact Memory.read_write_other m v h

/-- Every cell of a written memory is the written one or an old one. -/
theorem Memory.mem_write {m : Memory} {a : Nat} {v : Byte} {c : Host.Cell} (h : c ∈ m.write a v) :
    (c = (a, v) ∧ v ≠ Config.blankByte) ∨ c ∈ m := by
  induction m with
  | nil => unfold Memory.write at h; split at h <;> simp_all
  | cons d m ih =>
    obtain ⟨b, w⟩ := d
    unfold Memory.write at h
    split_ifs at h with h1 h2 h3 h4
    · exact .inr h
    · rcases List.mem_cons.mp h with rfl | h
      · exact .inl ⟨rfl, h2⟩
      · exact .inr h
    · exact .inr (by simp [h])
    · rcases List.mem_cons.mp h with rfl | h
      · exact .inl ⟨rfl, h4⟩
      · exact .inr (by simp [h])
    · rcases List.mem_cons.mp h with rfl | h
      · exact .inr (by simp)
      · exact (ih h).imp_right fun h => by simp [h]

theorem Memory.pairwise_write {m : Memory} (hm : m.Pairwise (fun c d => c.1 < d.1)) (a : Nat) (v : Byte) :
    (m.write a v).Pairwise (fun c d => c.1 < d.1) := by
  induction m with
  | nil => unfold Memory.write; split <;> simp
  | cons c m ih =>
    obtain ⟨b, w⟩ := c
    obtain ⟨hb, ht⟩ := List.pairwise_cons.mp hm
    unfold Memory.write
    split_ifs with h1 h2 h3 h4
    · exact hm
    · refine List.pairwise_cons.mpr ⟨fun c hc => ?_, hm⟩
      rcases List.mem_cons.mp hc with rfl | hc
      · exact h1
      · exact Nat.lt_trans h1 (hb c hc)
    · exact ht
    · exact List.pairwise_cons.mpr ⟨fun c hc => h3 ▸ hb c hc, ht⟩
    · refine List.pairwise_cons.mpr ⟨fun c hc => ?_, ih ht⟩
      rcases Memory.mem_write hc with ⟨rfl, -⟩ | hc
      · simp only; omega
      · exact hb c hc

/-- A write inside 0..255 keeps the canonical form. -/
theorem Memory.wf_write {m : Memory} (hm : m.wf) {a : Nat} (ha : a < Config.memSize) (v : Byte) : (m.write a v).wf := by
  refine ⟨Memory.pairwise_write hm.1 a v, fun c hc => ?_⟩
  rcases Memory.mem_write hc with ⟨rfl, hv⟩ | hc
  · exact ⟨hv, ha⟩
  · exact hm.2 c hc

theorem Memory.wf_nil : Memory.wf [] := ⟨.nil, by simp⟩

/-- The loader's writes inside 0..255 keep the canonical form. -/
theorem Memory.wf_writeBytes {m : Memory} (hm : m.wf) (bs : List Byte) {a : Nat} (h : a + bs.length ≤ Config.memSize) :
    (m.writeBytes a bs).wf := by
  induction bs generalizing m a with
  | nil => exact hm
  | cons b bs ih =>
    simp only [List.length_cons] at h
    exact ih (Memory.wf_write hm (by omega) b) (by omega)

/-- Canonical memories that read alike are equal. -/
theorem Memory.ext_of_wf {m n : Memory} (hm : m.wf) (hn : n.wf) (h : ∀ a, m.read a = n.read a) : m = n := by
  induction m generalizing n with
  | nil =>
    cases n with
    | nil => rfl
    | cons d n =>
      have := h d.1
      rw [Memory.read_nil, Memory.read_cons, if_pos rfl] at this
      exact absurd this.symm (hn.2 d (by simp)).1
  | cons c m ih =>
    obtain ⟨b, w⟩ := c
    obtain ⟨hb, ht⟩ := List.pairwise_cons.mp hm.1
    cases n with
    | nil =>
      have := h b
      rw [Memory.read_nil, Memory.read_cons, if_pos rfl] at this
      exact absurd this (hm.2 (b, w) (by simp)).1
    | cons d n =>
      obtain ⟨b', w'⟩ := d
      obtain ⟨hb', ht'⟩ := List.pairwise_cons.mp hn.1
      have hw := (hm.2 (b, w) (by simp)).1
      have hw' := (hn.2 (b', w') (by simp)).1
      have hbb : b = b' := by
        rcases Nat.lt_trichotomy b b' with hlt | heq | hgt
        · have := h b
          rw [Memory.read_cons, if_pos rfl, Memory.read_cons, if_neg (by omega),
            Memory.read_blank fun c hc => Nat.lt_trans hlt (hb' c hc)] at this
          exact absurd this hw
        · exact heq
        · have := h b'
          rw [Memory.read_cons, if_neg (by omega), Memory.read_blank fun c hc => Nat.lt_trans hgt (hb c hc),
            Memory.read_cons, if_pos rfl] at this
          exact absurd this.symm hw'
      subst hbb
      have hww : w = w' := by simpa [Memory.read_cons] using h b
      subst hww
      have hrest : m = n := by
        refine ih ⟨ht, fun c hc => hm.2 c (by simp [hc])⟩ ⟨ht', fun c hc => hn.2 c (by simp [hc])⟩ fun a => ?_
        by_cases hab : a = b
        · subst hab
          rw [Memory.read_blank fun c hc => hb c hc, Memory.read_blank fun c hc => hb' c hc]
        · simpa [Memory.read_cons, hab] using h a
      rw [hrest]

end Sys2Proof.Machine
end

