-- ==== Sys2Proof/Laws/Params.lean ====
section
/-! SUPPORT. The opcode map's laws: lookup is the inverse of a well-formed map, and the widths of well-formed parameters. -/

namespace Sys2Proof

@[simp] theorem Mnemonic.mem_all (m : Mnemonic) : m ∈ Mnemonic.all := by cases m <;> decide

theorem OpcodeMap.byte_injective {o : OpcodeMap} (h : o.wf) {m n : Mnemonic} (e : o.byte m = o.byte n) : m = n :=
  h.1 m m.mem_all n n.mem_all e

/-- `uniformWidth` of a well-formed opcode byte is the instruction's total width. -/
theorem OpcodeMap.uniformWidth_byte {o : OpcodeMap} (h : o.wf) (m : Mnemonic) :
    uniformWidth (o.byte m) = m.operandCount + 1 := by
  simp [uniformWidth, h.2 m m.mem_all]

/-- A looked-up mnemonic has the byte it was looked up by. -/
theorem OpcodeMap.byte_of_lookup {o : OpcodeMap} {ir : Byte} {m : Mnemonic} (h : o.lookup ir = some m) : o.byte m = ir := by
  simpa using List.find?_some h

theorem OpcodeMap.lookup_byte {o : OpcodeMap} (h : o.wf) (m : Mnemonic) : o.lookup (o.byte m) = some m := by
  cases hl : o.lookup (o.byte m) with
  | none =>
    have := List.find?_eq_none.mp hl m m.mem_all
    simp at this
  | some n => rw [OpcodeMap.byte_injective h (OpcodeMap.byte_of_lookup hl)]

theorem OpcodeMap.lookup_eq_none {o : OpcodeMap} {ir : Byte} : o.lookup ir = none ↔ ∀ m, o.byte m ≠ ir := by
  simp [OpcodeMap.lookup]

/-- The width of every mnemonic but HLT and MUL does not depend on the policy. -/
theorem Params.width_eq {p : Params} (h : p.wf) {m : Mnemonic} (hh : m ≠ .hlt) (hm : m ≠ .mul) :
    p.width m = some (m.operandCount + 1) := by
  have hu := OpcodeMap.uniformWidth_byte h m
  unfold Params.width
  cases p.widthPolicy with
  | uniform => simp [hu]
  | reference => cases m <;> simp_all [referenceWidth, Mnemonic.operandCount]

/-- MUL's width by policy. -/
theorem Params.width_mul {p : Params} (h : p.wf) : p.width .mul = some (if p.widthPolicy = .uniform then 3 else 2) := by
  have hu := OpcodeMap.uniformWidth_byte h .mul
  unfold Params.width
  cases p.widthPolicy with
  | uniform => simp [hu, Mnemonic.operandCount]
  | reference => simp [referenceWidth]

theorem decodeOpcode_eq_some {p : Params} {ir : Byte} {d : Decoded} :
    decodeOpcode p ir = some d ↔ ∃ m, p.opcode.lookup ir = some m ∧ d = p.record m := by
  simp [decodeOpcode, eq_comm]

theorem decodeOpcode_eq_none {p : Params} {ir : Byte} : decodeOpcode p ir = none ↔ ∀ m, p.opcode.byte m ≠ ir := by
  simp [decodeOpcode, OpcodeMap.lookup_eq_none]

@[simp] theorem Mnemonic.mnemonic_withOperands (m : Mnemonic) (a b : Byte) : (m.withOperands a b).mnemonic = m := by
  cases m <;> rfl

end Sys2Proof
end

