-- ==== Sys2Proof/Laws/State.lean ====
section
/-! SUPPORT. One lemma per field per update of the state, and the register file's reads after writes. -/

namespace Sys2Proof.Machine

variable (s : State) (r q : Fin 8) (v : Byte) (n : Nat) (p : Pc) (m : Mode) (e : Err) (k : Mnemonic)

@[simp] theorem State.setReg_mem : (s.setReg r v).mem = s.mem := rfl
@[simp] theorem State.setReg_pc : (s.setReg r v).pc = s.pc := rfl
@[simp] theorem State.setReg_mode : (s.setReg r v).mode = s.mode := rfl
@[simp] theorem State.setReg_fl : (s.setReg r v).fl = s.fl := rfl
@[simp] theorem State.setReg_out : (s.setReg r v).out = s.out := rfl
@[simp] theorem State.setReg_params : (s.setReg r v).params = s.params := rfl

@[simp] theorem State.setSp_mem : (s.setSp v).mem = s.mem := rfl
@[simp] theorem State.setSp_pc : (s.setSp v).pc = s.pc := rfl
@[simp] theorem State.setSp_mode : (s.setSp v).mode = s.mode := rfl
@[simp] theorem State.setSp_fl : (s.setSp v).fl = s.fl := rfl
@[simp] theorem State.setSp_out : (s.setSp v).out = s.out := rfl
@[simp] theorem State.setSp_params : (s.setSp v).params = s.params := rfl

@[simp] theorem State.emit_mem : (s.emit n).mem = s.mem := rfl
@[simp] theorem State.emit_regs : (s.emit n).regs = s.regs := rfl
@[simp] theorem State.emit_pc : (s.emit n).pc = s.pc := rfl
@[simp] theorem State.emit_mode : (s.emit n).mode = s.mode := rfl
@[simp] theorem State.emit_fl : (s.emit n).fl = s.fl := rfl
@[simp] theorem State.emit_out : (s.emit n).out = s.out ++ [n] := rfl
@[simp] theorem State.emit_params : (s.emit n).params = s.params := rfl

@[simp] theorem State.setPc_mem : (s.setPc p).mem = s.mem := rfl
@[simp] theorem State.setPc_regs : (s.setPc p).regs = s.regs := rfl
@[simp] theorem State.setPc_pc : (s.setPc p).pc = p := rfl
@[simp] theorem State.setPc_mode : (s.setPc p).mode = s.mode := rfl
@[simp] theorem State.setPc_fl : (s.setPc p).fl = s.fl := rfl
@[simp] theorem State.setPc_out : (s.setPc p).out = s.out := rfl
@[simp] theorem State.setPc_params : (s.setPc p).params = s.params := rfl

@[simp] theorem State.setMode_mem : (s.setMode m).mem = s.mem := rfl
@[simp] theorem State.setMode_regs : (s.setMode m).regs = s.regs := rfl
@[simp] theorem State.setMode_pc : (s.setMode m).pc = s.pc := rfl
@[simp] theorem State.setMode_mode : (s.setMode m).mode = m := rfl
@[simp] theorem State.setMode_fl : (s.setMode m).fl = s.fl := rfl
@[simp] theorem State.setMode_out : (s.setMode m).out = s.out := rfl
@[simp] theorem State.setMode_params : (s.setMode m).params = s.params := rfl

@[simp] theorem State.raise_mem : (s.raise e).mem = s.mem := rfl
@[simp] theorem State.raise_regs : (s.raise e).regs = s.regs := rfl
@[simp] theorem State.raise_pc : (s.raise e).pc = s.pc := rfl
@[simp] theorem State.raise_mode : (s.raise e).mode = .error e s.pc := rfl
@[simp] theorem State.raise_fl : (s.raise e).fl = s.fl := rfl
@[simp] theorem State.raise_out : (s.raise e).out = s.out := rfl
@[simp] theorem State.raise_params : (s.raise e).params = s.params := rfl

/-! `advance` is a `setPc` or nothing: it changes pc alone. -/

/-- What `advance` does: one pc update, whatever the width. -/
theorem State.advance_eq : s.advance k = s.setPc (s.pc + BitVec.ofNat 9 ((s.params.width k).getD 0)) := by
  unfold State.advance
  cases s.params.width k with
  | none => simp [State.setPc]
  | some w => rfl

@[simp] theorem State.advance_mem : (s.advance k).mem = s.mem := by simp [State.advance_eq]
@[simp] theorem State.advance_regs : (s.advance k).regs = s.regs := by simp [State.advance_eq]
@[simp] theorem State.advance_mode : (s.advance k).mode = s.mode := by simp [State.advance_eq]
@[simp] theorem State.advance_fl : (s.advance k).fl = s.fl := by simp [State.advance_eq]
@[simp] theorem State.advance_out : (s.advance k).out = s.out := by simp [State.advance_eq]
@[simp] theorem State.advance_params : (s.advance k).params = s.params := by simp [State.advance_eq]

/-! Reading a register looks at the register file alone. -/

theorem State.reg_congr {s t : State} (h : t.regs = s.regs) (r : Fin 8) : t.reg r = s.reg r := by
  simp [State.reg, h]

theorem State.reg_setReg : (s.setReg r v).reg q = if q = r then v else s.reg q := by
  simp only [State.reg, State.setReg, Fin.getElem_fin, Vector.getElem_set, Fin.ext_iff, eq_comm]

@[simp] theorem State.reg_setReg_same : (s.setReg r v).reg r = v := by simp [State.reg_setReg]

theorem State.reg_setReg_other {q r : Fin 8} (h : q ≠ r) : (s.setReg r v).reg q = s.reg q := by
  simp [State.reg_setReg, h]

@[simp] theorem State.sp_setSp : (s.setSp v).sp = v := by simp [State.sp, State.setSp]

theorem State.reg_setSp : (s.setSp v).reg q = if q = spIndex then v else s.reg q := s.reg_setReg spIndex q v

@[simp] theorem State.reg_emit : (s.emit n).reg r = s.reg r := rfl
@[simp] theorem State.reg_setPc : (s.setPc p).reg r = s.reg r := rfl
@[simp] theorem State.reg_setMode : (s.setMode m).reg r = s.reg r := rfl
@[simp] theorem State.reg_raise : (s.raise e).reg r = s.reg r := rfl
@[simp] theorem State.reg_advance : (s.advance k).reg r = s.reg r := State.reg_congr (by simp) r

/-- Two register files that read alike at every index are equal. -/
theorem State.regs_ext {s t : State} (h : ∀ r, s.reg r = t.reg r) : s.regs = t.regs :=
  Vector.ext fun i hi => by simpa [State.reg] using h ⟨i, hi⟩

@[simp] theorem flagsAfter_eq (f : Byte) : flagsAfter k f = f := rfl

end Sys2Proof.Machine
end

