-- ==== Sys2Proof/Laws/Ops.lean ====
section
/-! SUPPORT. One lemma for each shared operation, saying once everything it can do; later proofs cite these instead of
unfolding the operation. -/

namespace Sys2Proof.Machine

/-! ### The error monad, one step at a time -/

@[simp] theorem except_ok_bind {α β : Type} (x : α) (f : α → Except Err β) : (Except.ok x >>= f) = f x := rfl
@[simp] theorem except_error_bind {α β : Type} (e : Err) (f : α → Except Err β) :
    ((Except.error e : Except Err α) >>= f) = .error e := rfl
@[simp] theorem except_pure {α : Type} (x : α) : (pure x : Except Err α) = .ok x := rfl

/-! ### Operands and memory -/

theorem regIndex_ok {a : Byte} (h : a.toNat < 8) : regIndex a = .ok ⟨a.toNat, h⟩ := dif_pos h

theorem regIndex_error {a : Byte} (h : 8 ≤ a.toNat) : regIndex a = .error (.invalidRegister a) := dif_neg (by omega)

/-- The two outcomes of the index check. -/
theorem regIndex_cases (a : Byte) :
    (∃ h : a.toNat < 8, regIndex a = .ok ⟨a.toNat, h⟩) ∨ (8 ≤ a.toNat ∧ regIndex a = .error (.invalidRegister a)) := by
  by_cases h : a.toNat < 8
  · exact .inl ⟨h, regIndex_ok h⟩
  · exact .inr ⟨by omega, regIndex_error (by omega)⟩

theorem State.memRead_ok (s : State) {a : Nat} (h : a ≤ 255) : s.memRead a = .ok (s.mem.read a) := if_neg (by omega)

theorem State.memRead_error (s : State) {a : Nat} (h : 255 < a) : s.memRead a = .error (.outOfRange a) := if_pos h

theorem State.memWrite_ok (s : State) {a : Nat} (v : Byte) (h : a ≤ 255) :
    s.memWrite a v = .ok { s with mem := s.mem.write a v } := if_neg (by omega)

theorem State.memWrite_error (s : State) {a : Nat} (v : Byte) (h : 255 < a) : s.memWrite a v = .error (.outOfRange a) :=
  if_pos h

theorem byte_le_255 (v : Byte) : v.toNat ≤ 255 := by omega

/-- A stack pointer is always an address (20_memory.md R40). -/
theorem State.stackTop_eq (s : State) : s.stackTop = .ok (s.mem.read s.sp.toNat) := s.memRead_ok (byte_le_255 _)

/-! ### The stack pointer -/

theorem State.spDec_zero {s : State} (h : s.sp = 0) : s.spDec = .error (.outOfRange (-1)) := if_pos h
theorem State.spDec_ok {s : State} (h : s.sp ≠ 0) : s.spDec = .ok (s.setSp (s.sp - 1)) := if_neg h
theorem State.spInc_top {s : State} (h : s.sp = 255) : s.spInc = .error (.outOfRange 256) := if_pos h
theorem State.spInc_ok {s : State} (h : s.sp ≠ 255) : s.spInc = .ok (s.setSp (s.sp + 1)) := if_neg h

theorem State.push_zero {s : State} (h : s.sp = 0) (v : State → Byte) : s.push v = .error (.outOfRange (-1)) := by
  simp [State.push, State.spDec_zero h]

/-- A push: the stack pointer goes down by one and the value is stored at the new top. -/
theorem State.push_ok {s : State} (h : s.sp ≠ 0) (v : State → Byte) :
    s.push v = .ok { s.setSp (s.sp - 1) with
      mem := s.mem.write (s.sp - 1).toNat (v (s.setSp (s.sp - 1))) } := by
  simp only [State.push, State.spDec_ok h, except_ok_bind]
  rw [State.memWrite_ok _ _ (byte_le_255 _), State.sp_setSp]
  rfl

/-! ### The pc -/

/-- The advance of every instruction but HLT and MUL: its total width, under either policy. -/
theorem State.advance_width {s : State} {m : Mnemonic} (h : s.params.wf) (hh : m ≠ .hlt) (hm : m ≠ .mul) :
    s.advance m = s.setPc (s.pc + BitVec.ofNat 9 (m.operandCount + 1)) := by
  simp [State.advance_eq, Params.width_eq h hh hm]

/-- The advance of MUL, by policy. -/
theorem State.advance_mul {s : State} (h : s.params.wf) :
    s.advance .mul = s.setPc (s.pc + BitVec.ofNat 9 (if s.params.widthPolicy = .uniform then 3 else 2)) := by
  simp [State.advance_eq, Params.width_mul h]

theorem pcOfByte_eq (v : Byte) : pcOfByte v = BitVec.ofNat 9 v.toNat := BitVec.eq_of_toNat_eq (by simp [pcOfByte])

theorem State.returnAddress_eq (s : State) : s.returnAddress = BitVec.ofNat 8 (s.pc.toNat + 2) :=
  BitVec.eq_of_toNat_eq (by simp [State.returnAddress])

/-! ### The window, the commit and the body -/

theorem State.requireWindow_ok {s : State} (h : s.pc.toNat ≤ 253) : s.requireWindow = .ok () := by
  unfold State.requireWindow
  rw [if_neg (by omega), if_neg (by omega), if_neg (by omega)]

/-- Outside 0..253 the first window byte out of range is pc itself, or 256. -/
theorem State.requireWindow_error {s : State} (h : 253 < s.pc.toNat) :
    s.requireWindow = .error (.outOfRange (max s.pc.toNat 256 : Nat)) := by
  unfold State.requireWindow
  split_ifs <;> first | omega | (congr 2; omega)

@[simp] theorem State.commit_ok (s t : State) (m : Mnemonic) : s.commit m (.ok t) = .next t := rfl
@[simp] theorem State.commit_error (s : State) (m : Mnemonic) (e : Err) : s.commit m (.error e) = .next (s.raise e) := rfl

theorem State.runBody_ok {s : State} (h : s.pc.toNat ≤ 253) (m : Mnemonic) (body : Except Err State) :
    s.runBody m body = s.commit m body := by
  simp [State.runBody, State.requireWindow_ok h]

theorem State.runBody_window {s : State} (h : 253 < s.pc.toNat) (m : Mnemonic) (body : Except Err State) :
    s.runBody m body = .next (s.raise (.outOfRange (max s.pc.toNat 256 : Nat))) := by
  simp [State.runBody, State.requireWindow_error h]

/-- Everything a body can end in: the window's error, its own error, or its commit. -/
theorem State.runBody_cases {s : State} {m : Mnemonic} {body : Except Err State} {r : Result} (h : s.runBody m body = r) :
    (253 < s.pc.toNat ∧ r = .next (s.raise (.outOfRange (max s.pc.toNat 256 : Nat)))) ∨
    (s.pc.toNat ≤ 253 ∧ ∃ e, body = .error e ∧ r = .next (s.raise e)) ∨
    (s.pc.toNat ≤ 253 ∧ ∃ t, body = .ok t ∧ r = .next t) := by
  by_cases hp : s.pc.toNat ≤ 253
  · rw [State.runBody_ok hp] at h
    cases hb : body with
    | error e => exact .inr (.inl ⟨hp, e, rfl, by rw [← h, hb]; rfl⟩)
    | ok t => exact .inr (.inr ⟨hp, t, rfl, by rw [← h, hb]; rfl⟩)
  · exact .inl ⟨by omega, by rw [← h, State.runBody_window (by omega)]⟩

/-! ### The fetch -/

/-- Everything the fetch can end in, in the order of 40_execution_cycle.md R88. -/
theorem State.fetchInstr_cases (s : State) :
    (255 < s.pc.toNat ∧ s.fetchInstr = .error (.outOfRange s.pc.toNat)) ∨
    (s.pc.toNat ≤ 255 ∧ (∀ m, s.params.opcode.byte m ≠ s.mem.read s.pc.toNat) ∧
      s.fetchInstr = .error (.unknownOpcode (s.mem.read s.pc.toNat))) ∨
    (s.pc.toNat ≤ 255 ∧ 253 < s.pc.toNat ∧ (∃ m, s.params.opcode.lookup (s.mem.read s.pc.toNat) = some m) ∧
      s.fetchInstr = .error (.outOfRange 256)) ∨
    (s.pc.toNat ≤ 253 ∧ ∃ m, s.params.opcode.lookup (s.mem.read s.pc.toNat) = some m ∧
      s.fetchInstr = .ok (m.withOperands (s.mem.read (s.pc.toNat + 1)) (s.mem.read (s.pc.toNat + 2)))) := by
  by_cases hp : s.pc.toNat ≤ 255
  · right
    cases hd : decodeOpcode s.params (s.mem.read s.pc.toNat) with
    | none =>
      exact .inl ⟨hp, decodeOpcode_eq_none.mp hd, by simp [State.fetchInstr, s.memRead_ok hp, hd]⟩
    | some d =>
      obtain ⟨m, hm, rfl⟩ := decodeOpcode_eq_some.mp hd
      right
      by_cases hw : s.pc.toNat ≤ 253
      · refine .inr ⟨hw, m, hm, ?_⟩
        simp [State.fetchInstr, s.memRead_ok hp, hd, s.memRead_ok (show s.pc.toNat + 1 ≤ 255 by omega),
          s.memRead_ok (show s.pc.toNat + 2 ≤ 255 by omega), Params.record]
      · refine .inl ⟨hp, by omega, ⟨m, hm⟩, ?_⟩
        by_cases h5 : s.pc.toNat = 255
        · simp [State.fetchInstr, s.memRead_ok hp, hd, s.memRead_error (show 255 < s.pc.toNat + 1 by omega)]
          omega
        · simp [State.fetchInstr, s.memRead_ok hp, hd, s.memRead_ok (show s.pc.toNat + 1 ≤ 255 by omega),
            s.memRead_error (show 255 < s.pc.toNat + 2 by omega)]
          omega
  · exact .inl ⟨by omega, by simp [State.fetchInstr, s.memRead_error (show 255 < s.pc.toNat by omega)]⟩

end Sys2Proof.Machine
end

