-- ==== Sys2Proof/Laws/Step.lean ====
section
/-! SUPPORT. Everything a step can do, said once: the inversion of `step`, and what the fetch has to do with the decoder. -/

namespace Sys2Proof.Machine

/-- A three-byte window with a known opcode decodes to the instruction that the fetch builds. -/
theorem decode_window {p : Params} {ir a b : Byte} {m : Mnemonic} (h : p.opcode.lookup ir = some m) :
    decode p [ir, a, b] = .ok (m.withOperands a b, [a, b].drop m.operandCount) := by
  cases m <;> simp [decode, decodeOpcode, h, Params.record, Mnemonic.operandCount, Mnemonic.withOperands]

/-- A window with an unknown opcode does not decode. -/
theorem decode_unknown {p : Params} {ir : Byte} (bs : List Byte) (h : ∀ m, p.opcode.byte m ≠ ir) :
    decode p (ir :: bs) = .error (.unknownOpcode ir) := by
  simp [decode, decodeOpcode_eq_none.mpr h]

/-- The fetch succeeds with `i` exactly where the window fits and decodes to `i`. -/
theorem State.fetchInstr_eq_ok {s : State} {i : Instr} :
    s.fetchInstr = .ok i ↔ s.pc.toNat ≤ 253 ∧ ∃ rest,
      decode s.params [s.mem.read s.pc.toNat, s.mem.read (s.pc.toNat + 1), s.mem.read (s.pc.toNat + 2)] = .ok (i, rest) := by
  rcases s.fetchInstr_cases with ⟨h, e⟩ | ⟨h, hu, e⟩ | ⟨h, h', ⟨m, hm⟩, e⟩ | ⟨h, m, hm, e⟩
  · simp [e, show ¬ s.pc.toNat ≤ 253 by omega]
  · simp [e, decode_unknown _ hu]
  · simp [e, show ¬ s.pc.toNat ≤ 253 by omega]
  · simp [e, h, decode_window hm]

/-- A step that answers a next state started RUNNING, and is an error of the fetch or the execution of the fetched instruction. -/
theorem step_next_cases {s t : State} (h : step s = .next t) :
    s.mode = .running ∧
      ((∃ e, s.fetchInstr = .error e ∧ t = s.raise e) ∨ ∃ i, s.fetchInstr = .ok i ∧ exec i s = .next t) := by
  unfold step at h
  split at h
  · cases h
  · cases h
  · rename_i hm
    refine ⟨hm, ?_⟩
    split at h
    · rename_i e he
      exact .inl ⟨e, he, by injection h with h; exact h.symm⟩
    · rename_i i hi
      exact .inr ⟨i, hi, h⟩

/-- A RUNNING state's step is its fetch's error or its instruction. -/
theorem step_running {s : State} (h : s.mode = .running) :
    step s = match s.fetchInstr with
      | .error e => .next (s.raise e)
      | .ok i => exec i s := by
  unfold step
  rw [h] <;> rfl

/-- Every meaning is a body behind the window check, so it answers a next state. -/
theorem exec_is_body (i : Instr) (s : State) : ∃ body, exec i s = s.runBody i.mnemonic body := by
  cases i <;> exact ⟨_, rfl⟩

theorem exec_next (i : Instr) (s : State) : ∃ t, exec i s = .next t := by
  obtain ⟨body, h⟩ := exec_is_body i s
  rcases State.runBody_cases (h ▸ rfl : s.runBody i.mnemonic body = exec i s) with ⟨-, h⟩ | ⟨-, e, -, h⟩ | ⟨-, t, -, h⟩ <;>
    exact ⟨_, h⟩

end Sys2Proof.Machine
end

