-- ==== Sys2Proof/Laws/Exec.lean ====
section
/-! SUPPORT. Everything an instruction can end in, one lemma for each meaning: the window's error, an index error, a stack-pointer
error, or its commit, each with the condition it holds under. Later proofs cite these instead of unfolding a meaning. -/

namespace Sys2Proof.Machine

/-- The window's error, which every meaning shares. -/
abbrev State.windowError (s : State) : Result := .next (s.raise (.outOfRange (max s.pc.toNat 256 : Nat)))

/-- A body's first index check: the window's error, the index error, or the rest of the body. -/
theorem State.runBody_regIndex (s : State) (m : Mnemonic) (a : Byte) (f : Fin 8 → Except Err State) :
    (253 < s.pc.toNat ∧ s.runBody m (regIndex a >>= f) = s.windowError) ∨
    (s.pc.toNat ≤ 253 ∧ 8 ≤ a.toNat ∧ s.runBody m (regIndex a >>= f) = .next (s.raise (.invalidRegister a))) ∨
    (s.pc.toNat ≤ 253 ∧ ∃ h : a.toNat < 8, s.runBody m (regIndex a >>= f) = s.commit m (f ⟨a.toNat, h⟩)) := by
  by_cases hp : s.pc.toNat ≤ 253
  · rcases regIndex_cases a with ⟨h, e⟩ | ⟨h, e⟩
    · exact .inr (.inr ⟨hp, h, by rw [State.runBody_ok hp, e, except_ok_bind]⟩)
    · exact .inr (.inl ⟨hp, h, by rw [State.runBody_ok hp, e]; rfl⟩)
  · exact .inl ⟨by omega, State.runBody_window (by omega) _ _⟩

theorem execLdi_cases (a b : Byte) (s : State) :
    (253 < s.pc.toNat ∧ execLdi a b s = s.windowError) ∨
    (s.pc.toNat ≤ 253 ∧ 8 ≤ a.toNat ∧ execLdi a b s = .next (s.raise (.invalidRegister a))) ∨
    (s.pc.toNat ≤ 253 ∧ ∃ h : a.toNat < 8, execLdi a b s = .next ((s.setReg ⟨a.toNat, h⟩ b).advance .ldi)) :=
  s.runBody_regIndex _ _ _

theorem execPrn_cases (a : Byte) (s : State) :
    (253 < s.pc.toNat ∧ execPrn a s = s.windowError) ∨
    (s.pc.toNat ≤ 253 ∧ 8 ≤ a.toNat ∧ execPrn a s = .next (s.raise (.invalidRegister a))) ∨
    (s.pc.toNat ≤ 253 ∧ ∃ h : a.toNat < 8, execPrn a s = .next ((s.emit (s.reg ⟨a.toNat, h⟩).toNat).advance .prn)) :=
  s.runBody_regIndex _ _ _

/-- The state after a push of `v` at a stack pointer other than 0. -/
def State.pushed (s : State) (v : Byte) : State :=
  { s.setSp (s.sp - 1) with mem := s.mem.write (s.sp - 1).toNat v }

@[simp] theorem State.pushed_mem (s : State) (v : Byte) : (s.pushed v).mem = s.mem.write (s.sp - 1).toNat v := rfl
@[simp] theorem State.pushed_pc (s : State) (v : Byte) : (s.pushed v).pc = s.pc := rfl
@[simp] theorem State.pushed_mode (s : State) (v : Byte) : (s.pushed v).mode = s.mode := rfl
@[simp] theorem State.pushed_fl (s : State) (v : Byte) : (s.pushed v).fl = s.fl := rfl
@[simp] theorem State.pushed_out (s : State) (v : Byte) : (s.pushed v).out = s.out := rfl
@[simp] theorem State.pushed_params (s : State) (v : Byte) : (s.pushed v).params = s.params := rfl
theorem State.reg_pushed (s : State) (v : Byte) (r : Fin 8) :
    (s.pushed v).reg r = if r = spIndex then s.sp - 1 else s.reg r := s.reg_setSp r (s.sp - 1)

theorem execPush_cases (a : Byte) (s : State) :
    (253 < s.pc.toNat ∧ execPush a s = s.windowError) ∨
    (s.pc.toNat ≤ 253 ∧ 8 ≤ a.toNat ∧ execPush a s = .next (s.raise (.invalidRegister a))) ∨
    (s.pc.toNat ≤ 253 ∧ a.toNat < 8 ∧ s.sp = 0 ∧ execPush a s = .next (s.raise (.outOfRange (-1)))) ∨
    (s.pc.toNat ≤ 253 ∧ s.sp ≠ 0 ∧ ∃ h : a.toNat < 8,
      execPush a s = .next ((s.pushed ((s.setSp (s.sp - 1)).reg ⟨a.toNat, h⟩)).advance .push)) := by
  rcases s.runBody_regIndex .push a _ with h | h | ⟨hp, ha, h⟩
  · exact .inl h
  · exact .inr (.inl h)
  · right; right
    by_cases hs : s.sp = 0
    · exact .inl ⟨hp, ha, hs, h.trans (by rw [State.push_zero hs]; rfl)⟩
    · exact .inr ⟨hp, hs, ha, h.trans (by rw [State.push_ok hs]; rfl)⟩

theorem execPop_cases (a : Byte) (s : State) :
    (253 < s.pc.toNat ∧ execPop a s = s.windowError) ∨
    (s.pc.toNat ≤ 253 ∧ 8 ≤ a.toNat ∧ execPop a s = .next (s.raise (.invalidRegister a))) ∨
    (s.pc.toNat ≤ 253 ∧ ∃ h : a.toNat < 8, (s.setReg ⟨a.toNat, h⟩ (s.mem.read s.sp.toNat)).sp = 255 ∧
      execPop a s = .next (s.raise (.outOfRange 256))) ∨
    (s.pc.toNat ≤ 253 ∧ ∃ h : a.toNat < 8, (s.setReg ⟨a.toNat, h⟩ (s.mem.read s.sp.toNat)).sp ≠ 255 ∧
      execPop a s = .next (((s.setReg ⟨a.toNat, h⟩ (s.mem.read s.sp.toNat)).setSp
        ((s.setReg ⟨a.toNat, h⟩ (s.mem.read s.sp.toNat)).sp + 1)).advance .pop)) := by
  rcases s.runBody_regIndex .pop a _ with h | h | ⟨hp, ha, h⟩
  · exact .inl h
  · exact .inr (.inl h)
  · right; right
    by_cases hs : (s.setReg ⟨a.toNat, ha⟩ (s.mem.read s.sp.toNat)).sp = 255
    · exact .inl ⟨hp, ha, hs, h.trans (by rw [State.stackTop_eq, except_ok_bind, State.spInc_top hs]; rfl)⟩
    · exact .inr ⟨hp, ha, hs, h.trans (by rw [State.stackTop_eq, except_ok_bind, State.spInc_ok hs]; rfl)⟩

theorem execHlt_cases (s : State) :
    (253 < s.pc.toNat ∧ execHlt s = s.windowError) ∨
    (s.pc.toNat ≤ 253 ∧ execHlt s = .next (s.setMode .halted)) := by
  by_cases hp : s.pc.toNat ≤ 253
  · exact .inr ⟨hp, State.runBody_ok hp _ _⟩
  · exact .inl ⟨by omega, State.runBody_window (by omega) _ _⟩

theorem execAdd_cases (a b : Byte) (s : State) :
    (253 < s.pc.toNat ∧ execAdd a b s = s.windowError) ∨
    (s.pc.toNat ≤ 253 ∧ 8 ≤ a.toNat ∧ execAdd a b s = .next (s.raise (.invalidRegister a))) ∨
    (s.pc.toNat ≤ 253 ∧ a.toNat < 8 ∧ 8 ≤ b.toNat ∧ execAdd a b s = .next (s.raise (.invalidRegister b))) ∨
    (s.pc.toNat ≤ 253 ∧ ∃ (ha : a.toNat < 8) (hb : b.toNat < 8), execAdd a b s =
      .next ((s.setReg ⟨a.toNat, ha⟩ (aluAdd (s.reg ⟨a.toNat, ha⟩) (s.reg ⟨b.toNat, hb⟩))).advance .add)) := by
  rcases s.runBody_regIndex .add a _ with h | h | ⟨hp, ha, h⟩
  · exact .inl h
  · exact .inr (.inl h)
  · right; right
    rcases regIndex_cases b with ⟨hb, e⟩ | ⟨hb, e⟩
    · exact .inr ⟨hp, ha, hb, h.trans (by rw [e]; rfl)⟩
    · exact .inl ⟨hp, ha, hb, h.trans (by rw [e]; rfl)⟩

theorem execMul_cases (a b : Byte) (s : State) :
    (253 < s.pc.toNat ∧ execMul a b s = s.windowError) ∨
    (s.pc.toNat ≤ 253 ∧ 8 ≤ a.toNat ∧ execMul a b s = .next (s.raise (.invalidRegister a))) ∨
    (s.pc.toNat ≤ 253 ∧ a.toNat < 8 ∧ 8 ≤ b.toNat ∧ execMul a b s = .next (s.raise (.invalidRegister b))) ∨
    (s.pc.toNat ≤ 253 ∧ ∃ (ha : a.toNat < 8) (hb : b.toNat < 8), execMul a b s =
      .next ((s.emit (aluMul (s.reg ⟨a.toNat, ha⟩) (s.reg ⟨b.toNat, hb⟩))).advance .mul)) := by
  rcases s.runBody_regIndex .mul a _ with h | h | ⟨hp, ha, h⟩
  · exact .inl h
  · exact .inr (.inl h)
  · right; right
    rcases regIndex_cases b with ⟨hb, e⟩ | ⟨hb, e⟩
    · exact .inr ⟨hp, ha, hb, h.trans (by rw [e]; rfl)⟩
    · exact .inl ⟨hp, ha, hb, h.trans (by rw [e]; rfl)⟩

theorem execCall_cases (a : Byte) (s : State) :
    (253 < s.pc.toNat ∧ execCall a s = s.windowError) ∨
    (s.pc.toNat ≤ 253 ∧ 8 ≤ a.toNat ∧ execCall a s = .next (s.raise (.invalidRegister a))) ∨
    (s.pc.toNat ≤ 253 ∧ a.toNat < 8 ∧ s.sp = 0 ∧ execCall a s = .next (s.raise (.outOfRange (-1)))) ∨
    (s.pc.toNat ≤ 253 ∧ s.sp ≠ 0 ∧ ∃ h : a.toNat < 8, execCall a s =
      .next ((s.pushed s.returnAddress).setPc (pcOfByte ((s.pushed s.returnAddress).reg ⟨a.toNat, h⟩)))) := by
  rcases s.runBody_regIndex .call a _ with h | h | ⟨hp, ha, h⟩
  · exact .inl h
  · exact .inr (.inl h)
  · right; right
    by_cases hs : s.sp = 0
    · exact .inl ⟨hp, ha, hs, h.trans (by rw [State.push_zero hs]; rfl)⟩
    · exact .inr ⟨hp, hs, ha, h.trans (by rw [State.push_ok hs]; rfl)⟩

theorem execRet_cases (s : State) :
    (253 < s.pc.toNat ∧ execRet s = s.windowError) ∨
    (s.pc.toNat ≤ 253 ∧ s.sp = 255 ∧ execRet s = .next (s.raise (.outOfRange 256))) ∨
    (s.pc.toNat ≤ 253 ∧ s.sp ≠ 255 ∧
      execRet s = .next ((s.setSp (s.sp + 1)).setPc (pcOfByte (s.mem.read s.sp.toNat)))) := by
  by_cases hp : s.pc.toNat ≤ 253
  · have h : execRet s = s.commit .ret (do let v ← s.stackTop; let t ← s.spInc; return t.setPc (pcOfByte v)) :=
      State.runBody_ok hp _ _
    rw [State.stackTop_eq] at h
    by_cases hs : s.sp = 255
    · exact .inr (.inl ⟨hp, hs, h.trans (by rw [State.spInc_top hs]; rfl)⟩)
    · exact .inr (.inr ⟨hp, hs, h.trans (by rw [State.spInc_ok hs]; rfl)⟩)
  · exact .inl ⟨by omega, State.runBody_window (by omega) _ _⟩

/-! ### All meanings together -/

/-- `Completes i s t`: instruction `i` commits on `s` and leaves `t` (40_execution_cycle.md R80). -/
inductive Completes : Instr → State → State → Prop where
  | ldi {a b : Byte} {s : State} (h : a.toNat < 8) : Completes (.ldi a b) s ((s.setReg ⟨a.toNat, h⟩ b).advance .ldi)
  | prn {a : Byte} {s : State} (h : a.toNat < 8) :
      Completes (.prn a) s ((s.emit (s.reg ⟨a.toNat, h⟩).toNat).advance .prn)
  | push {a : Byte} {s : State} (h : a.toNat < 8) (hs : s.sp ≠ 0) :
      Completes (.push a) s ((s.pushed ((s.setSp (s.sp - 1)).reg ⟨a.toNat, h⟩)).advance .push)
  | pop {a : Byte} {s : State} (h : a.toNat < 8) (hs : (s.setReg ⟨a.toNat, h⟩ (s.mem.read s.sp.toNat)).sp ≠ 255) :
      Completes (.pop a) s (((s.setReg ⟨a.toNat, h⟩ (s.mem.read s.sp.toNat)).setSp
        ((s.setReg ⟨a.toNat, h⟩ (s.mem.read s.sp.toNat)).sp + 1)).advance .pop)
  | hlt {s : State} : Completes .hlt s (s.setMode .halted)
  | add {a b : Byte} {s : State} (ha : a.toNat < 8) (hb : b.toNat < 8) : Completes (.add a b) s
      ((s.setReg ⟨a.toNat, ha⟩ (aluAdd (s.reg ⟨a.toNat, ha⟩) (s.reg ⟨b.toNat, hb⟩))).advance .add)
  | mul {a b : Byte} {s : State} (ha : a.toNat < 8) (hb : b.toNat < 8) : Completes (.mul a b) s
      ((s.emit (aluMul (s.reg ⟨a.toNat, ha⟩) (s.reg ⟨b.toNat, hb⟩))).advance .mul)
  | call {a : Byte} {s : State} (h : a.toNat < 8) (hs : s.sp ≠ 0) : Completes (.call a) s
      ((s.pushed s.returnAddress).setPc (pcOfByte ((s.pushed s.returnAddress).reg ⟨a.toNat, h⟩)))
  | ret {s : State} (hs : s.sp ≠ 255) :
      Completes .ret s ((s.setSp (s.sp + 1)).setPc (pcOfByte (s.mem.read s.sp.toNat)))

/-- `FailsWith i s e`: instruction `i` raises `e` on `s`, in the order of 40_execution_cycle.md R88. -/
inductive FailsWith : Instr → State → Err → Prop where
  | window {i : Instr} {s : State} (h : 253 < s.pc.toNat) : FailsWith i s (.outOfRange (max s.pc.toNat 256 : Nat))
  | indexA {i : Instr} {s : State} {a : Byte} (hp : s.pc.toNat ≤ 253) (hi : i.registerBytes.head? = some a)
      (h : 8 ≤ a.toNat) : FailsWith i s (.invalidRegister a)
  | indexB {i : Instr} {s : State} {a b : Byte} (hp : s.pc.toNat ≤ 253) (hi : i.registerBytes = [a, b])
      (ha : a.toNat < 8) (hb : 8 ≤ b.toNat) : FailsWith i s (.invalidRegister b)
  | push {s : State} {a : Byte} (hp : s.pc.toNat ≤ 253) (h : a.toNat < 8) (hs : s.sp = 0) :
      FailsWith (.push a) s (.outOfRange (-1))
  | call {s : State} {a : Byte} (hp : s.pc.toNat ≤ 253) (h : a.toNat < 8) (hs : s.sp = 0) :
      FailsWith (.call a) s (.outOfRange (-1))
  | pop {s : State} {a : Byte} (hp : s.pc.toNat ≤ 253) (h : a.toNat < 8)
      (hs : (s.setReg ⟨a.toNat, h⟩ (s.mem.read s.sp.toNat)).sp = 255) : FailsWith (.pop a) s (.outOfRange 256)
  | ret {s : State} (hp : s.pc.toNat ≤ 253) (hs : s.sp = 255) : FailsWith .ret s (.outOfRange 256)

/-- Every instruction fails with one of the errors or completes, and answers a next state either way. -/
theorem exec_fails_or_completes (i : Instr) (s : State) : 
    (∃ e, FailsWith i s e ∧ exec i s = .next (s.raise e)) ∨
    (s.pc.toNat ≤ 253 ∧ ∃ t, Completes i s t ∧ exec i s = .next t) := by
  cases i with
  | ldi a b =>
    rcases execLdi_cases a b s with ⟨h, e⟩ | ⟨h, h2, e⟩ | ⟨h, h2, e⟩
    · exact .inl ⟨_, .window h, e⟩
    · exact .inl ⟨_, .indexA h rfl h2, e⟩
    · exact .inr ⟨h, _, .ldi h2, e⟩
  | prn a =>
    rcases execPrn_cases a s with ⟨h, e⟩ | ⟨h, h2, e⟩ | ⟨h, h2, e⟩
    · exact .inl ⟨_, .window h, e⟩
    · exact .inl ⟨_, .indexA h rfl h2, e⟩
    · exact .inr ⟨h, _, .prn h2, e⟩
  | push a =>
    rcases execPush_cases a s with ⟨h, e⟩ | ⟨h, h2, e⟩ | ⟨h, h2, h3, e⟩ | ⟨h, h2, h3, e⟩
    · exact .inl ⟨_, .window h, e⟩
    · exact .inl ⟨_, .indexA h rfl h2, e⟩
    · exact .inl ⟨_, .push h h2 h3, e⟩
    · exact .inr ⟨h, _, .push h3 h2, e⟩
  | pop a =>
    rcases execPop_cases a s with ⟨h, e⟩ | ⟨h, h2, e⟩ | ⟨h, h2, h3, e⟩ | ⟨h, h2, h3, e⟩
    · exact .inl ⟨_, .window h, e⟩
    · exact .inl ⟨_, .indexA h rfl h2, e⟩
    · exact .inl ⟨_, .pop h h2 h3, e⟩
    · exact .inr ⟨h, _, .pop h2 h3, e⟩
  | hlt =>
    rcases execHlt_cases s with ⟨h, e⟩ | ⟨h, e⟩
    · exact .inl ⟨_, .window h, e⟩
    · exact .inr ⟨h, _, .hlt, e⟩
  | add a b =>
    rcases execAdd_cases a b s with ⟨h, e⟩ | ⟨h, h2, e⟩ | ⟨h, h2, h3, e⟩ | ⟨h, h2, h3, e⟩
    · exact .inl ⟨_, .window h, e⟩
    · exact .inl ⟨_, .indexA h rfl h2, e⟩
    · exact .inl ⟨_, .indexB h rfl h2 h3, e⟩
    · exact .inr ⟨h, _, .add h2 h3, e⟩
  | mul a b =>
    rcases execMul_cases a b s with ⟨h, e⟩ | ⟨h, h2, e⟩ | ⟨h, h2, h3, e⟩ | ⟨h, h2, h3, e⟩
    · exact .inl ⟨_, .window h, e⟩
    · exact .inl ⟨_, .indexA h rfl h2, e⟩
    · exact .inl ⟨_, .indexB h rfl h2 h3, e⟩
    · exact .inr ⟨h, _, .mul h2 h3, e⟩
  | call a =>
    rcases execCall_cases a s with ⟨h, e⟩ | ⟨h, h2, e⟩ | ⟨h, h2, h3, e⟩ | ⟨h, h2, h3, e⟩
    · exact .inl ⟨_, .window h, e⟩
    · exact .inl ⟨_, .indexA h rfl h2, e⟩
    · exact .inl ⟨_, .call h h2 h3, e⟩
    · exact .inr ⟨h, _, .call h3 h2, e⟩
  | ret =>
    rcases execRet_cases s with ⟨h, e⟩ | ⟨h, h2, e⟩ | ⟨h, h2, e⟩
    · exact .inl ⟨_, .window h, e⟩
    · exact .inl ⟨_, .ret h h2, e⟩
    · exact .inr ⟨h, _, .ret h2, e⟩

/-- The inversion of `exec`. -/
theorem exec_next_cases {i : Instr} {s t : State} (h : exec i s = .next t) :
    (∃ e, FailsWith i s e ∧ t = s.raise e) ∨ (s.pc.toNat ≤ 253 ∧ Completes i s t) := by
  rcases exec_fails_or_completes i s with ⟨e, he, e2⟩ | ⟨hp, t', ht, e2⟩ <;> rw [h] at e2 <;> injection e2 with e2
  · exact .inl ⟨e, he, e2⟩
  · exact .inr ⟨hp, e2 ▸ ht⟩

/-- On one state an instruction has one outcome: it does not fail where it completes. -/
theorem FailsWith.not_completes {i : Instr} {s t : State} {e : Err} (hf : FailsWith i s e) (hp : s.pc.toNat ≤ 253) :
    ¬ Completes i s t := by
  intro hc
  cases hf with
  | window h => omega
  | indexA _ hi h => cases hc <;> simp only [Instr.registerBytes, List.head?_cons, List.head?_nil, Option.some.injEq, reduceCtorEq] at hi <;> subst hi <;> omega
  | indexB _ hi h h2 => cases hc <;> simp only [Instr.registerBytes, List.cons.injEq, reduceCtorEq, and_false] at hi <;> obtain ⟨rfl, rfl, -⟩ := hi <;> omega
  | push _ _ hs => cases hc; contradiction
  | call _ _ hs => cases hc; contradiction
  | pop _ _ hs => cases hc; contradiction
  | ret _ hs => cases hc; contradiction

theorem Completes.deterministic {i : Instr} {s t u : State} (h : Completes i s t) (h' : Completes i s u) : t = u := by
  cases h <;> cases h' <;> rfl

/-- The converse of `exec_next_cases` for a completion. -/
theorem Completes.exec_eq {i : Instr} {s t : State} (h : Completes i s t) (hp : s.pc.toNat ≤ 253) : exec i s = .next t := by
  rcases exec_fails_or_completes i s with ⟨e, he, -⟩ | ⟨-, u, hu, e⟩
  · exact absurd h (he.not_completes hp)
  · rw [e, h.deterministic hu]

/-- A completed instruction keeps the parameters and `fl`, and the mode but for HLT. -/
theorem Completes.params_eq {i : Instr} {s t : State} (h : Completes i s t) : t.params = s.params := by cases h <;> simp
theorem Completes.fl_eq {i : Instr} {s t : State} (h : Completes i s t) : t.fl = s.fl := by cases h <;> simp
theorem Completes.mode_eq {i : Instr} {s t : State} (h : Completes i s t) :
    t.mode = if i = .hlt then .halted else s.mode := by cases h <;> simp

/-- Everything a step can do: it starts RUNNING, and is an error of the fetch, an error of the fetched instruction, or its
completion. -/
theorem step_next_inversion {s t : State} (h : step s = .next t) :
    s.mode = .running ∧
      ((∃ e, s.fetchInstr = .error e ∧ t = s.raise e) ∨
        ∃ i, s.fetchInstr = .ok i ∧ exec i s = .next t ∧
          ((∃ e, FailsWith i s e ∧ t = s.raise e) ∨ (s.pc.toNat ≤ 253 ∧ Completes i s t))) := by
  obtain ⟨hr, h | ⟨i, hi, h⟩⟩ := step_next_cases h
  · exact ⟨hr, .inl h⟩
  · exact ⟨hr, .inr ⟨i, hi, h, exec_next_cases h⟩⟩

end Sys2Proof.Machine
end

