-- ==== Sys2Proof/Laws/PerInstr.lean ====
section
/-! SUPPORT. Statements about the instruction as syntax, one lemma per constructor. -/

namespace Sys2Proof.Laws.EncodeShape

/-- An instruction's bytes are its opcode byte and then its operand bytes, one more byte than its operand count
(30_encoding.md R60, R61). -/
def Statement (i : Instr) : Prop :=
  ∀ p : Params, encode p i = p.opcode.byte i.mnemonic :: i.operandBytes ∧
    (encode p i).length = i.mnemonic.operandCount + 1

theorem hlt : Statement .hlt := fun _ => ⟨rfl, rfl⟩
theorem ret : Statement .ret := fun _ => ⟨rfl, rfl⟩
theorem push (a : Byte) : Statement (.push a) := fun _ => ⟨rfl, rfl⟩
theorem pop (a : Byte) : Statement (.pop a) := fun _ => ⟨rfl, rfl⟩
theorem prn (a : Byte) : Statement (.prn a) := fun _ => ⟨rfl, rfl⟩
theorem call (a : Byte) : Statement (.call a) := fun _ => ⟨rfl, rfl⟩
theorem ldi (a b : Byte) : Statement (.ldi a b) := fun _ => ⟨rfl, rfl⟩
theorem add (a b : Byte) : Statement (.add a b) := fun _ => ⟨rfl, rfl⟩
theorem mul (a b : Byte) : Statement (.mul a b) := fun _ => ⟨rfl, rfl⟩

end Sys2Proof.Laws.EncodeShape
end

