-- ==== Sys2Proof/Tests/Slice0.lean ====
section
/-! SUPPORT. Small tests, with results from the spec's own vectors (95_test_vectors.md), and for each statement with hypotheses a
witness that meets all of them together. -/

namespace Sys2Proof.Tests

open Sys2Proof Sys2Proof.Machine Sys2Proof.Claims

/-! ### Helpers -/

/-- The next state of an outcome, if there is one. -/
def nextOf : Result → Option State
  | .next t => some t
  | _ => none

/-- The reset state with bytes placed at an address and pc there. -/
def code (pc : Pc) (bytes : List Byte) : State :=
  { State.reset with mem := Memory.writeBytes [] pc.toNat bytes, pc := pc }

/-- The reset state with a program at 0, a register changed. -/
def code1 (bytes : List Byte) (r : Fin 8) (v : Byte) : State := (code 0 bytes).setReg r v

/-- One step, one observation. -/
def after {α : Type} (s : State) (f : State → α) : Option α := (nextOf (step s)).map f

/-- The reference width policy with the default opcodes. -/
def referenceParams : Params := { Params.default with widthPolicy := .reference }

/-- Another legal `OPCODE`: HLT and RET exchanged, ADD and MUL exchanged. -/
def otherParams : Params :=
  { Params.default with opcode := { OpcodeMap.ls8 with hlt := 0x11, ret := 0x01, add := 0xA2, mul := 0xA0 } }

/-! ### Well-formedness refuses each ill-formed term (10_state.md R23, 30_encoding.md R63) -/

theorem test_wf_refuses_ldi : ¬ (Instr.ldi 8 0).wf := by decide
theorem test_wf_refuses_prn : ¬ (Instr.prn 8).wf := by decide
theorem test_wf_refuses_push : ¬ (Instr.push 255).wf := by decide
theorem test_wf_refuses_pop : ¬ (Instr.pop 8).wf := by decide
theorem test_wf_refuses_call : ¬ (Instr.call 8).wf := by decide
theorem test_wf_refuses_add_a : ¬ (Instr.add 8 0).wf := by decide
theorem test_wf_refuses_add_b : ¬ (Instr.add 0 8).wf := by decide
theorem test_wf_refuses_mul_a : ¬ (Instr.mul 8 0).wf := by decide
theorem test_wf_refuses_mul_b : ¬ (Instr.mul 0 8).wf := by decide
theorem test_wf_accepts_any_immediate : (Instr.ldi 7 255).wf := by decide
theorem test_wf_refuses_shared_opcode : ¬ OpcodeMap.wf { OpcodeMap.ls8 with ret := 0x01 } := by decide
theorem test_wf_refuses_operand_count : ¬ OpcodeMap.wf { OpcodeMap.ls8 with push := 0x05 } := by decide
theorem test_wf_memory_refuses_order : ¬ Memory.wf [(2, 1), (1, 1)] := by decide
theorem test_wf_memory_refuses_blank : ¬ Memory.wf [(2, 0)] := by decide
theorem test_wf_memory_refuses_address : ¬ Memory.wf [(256, 1)] := by decide

/-! ### Decoding: the words of 30_encoding.md R62, R64 and 95_test_vectors.md 2.1 -/

theorem test_decode_hlt : decode Params.default [0b00000001#8] = .ok (.hlt, []) := rfl
theorem test_decode_ret : decode Params.default [0b00010001#8] = .ok (.ret, []) := rfl
theorem test_decode_push : decode Params.default [0b01000101#8, 0b00000010#8] = .ok (.push 2, []) := rfl
theorem test_decode_pop : decode Params.default [0b01000110#8, 0b00000011#8] = .ok (.pop 3, []) := rfl
theorem test_decode_prn : decode Params.default [0b01000111#8, 0b00000111#8] = .ok (.prn 7, []) := rfl
theorem test_decode_call : decode Params.default [0b01010000#8, 0b00000001#8] = .ok (.call 1, []) := rfl
theorem test_decode_ldi : decode Params.default [0b10000010#8, 0b00000000#8, 0b11111111#8] = .ok (.ldi 0 255, []) := rfl
theorem test_decode_add : decode Params.default [0b10100000#8, 0b00000111#8, 0b00000001#8] = .ok (.add 7 1, []) := rfl
theorem test_decode_mul : decode Params.default [0b10100010#8, 0b00000011#8, 0b00001010#8] = .ok (.mul 3 10, []) := rfl
theorem test_decode_unknown : [0x00#8, 0x02#8, 0x05#8, 0x83#8, 0xA1#8, 0xFF#8].all
    (fun ir => (decodeOpcode Params.default ir).isNone) = true := by decide
theorem test_decode_empty : decode Params.default [] = .error .noOpcode := rfl
theorem test_decode_short : decode Params.default [0x82#8, 0x00#8] = .error (.missingOperand .ldi) := rfl
theorem test_table_word_ldi : decodeTableWord 24 0xFF0782 = some (.ldi 7 255) := by decide
theorem test_table_word_hlt : decodeTableWord 8 0x01 = some .hlt := by decide
theorem test_table_word_unknown : decodeTableWord 8 0xFF = none := by decide
theorem test_other_opcode_map : decode otherParams [0xA2#8, 0x00#8, 0x01#8] = .ok (.add 0 1, []) := rfl
theorem test_encode_mul : encode Params.default (.mul 0 1) = [0xA2#8, 0x00#8, 0x01#8] := rfl
theorem test_width_mul : (Params.default.width .mul, referenceParams.width .mul) = (some 3, some 2) := by decide
theorem test_width_hlt : (Params.default.width .hlt, referenceParams.width .hlt) = (some 1, none) := by decide

/-! ### The instructions: 95_test_vectors.md 2.3 to 2.11, one step each -/

theorem test_ldi_sets_sp : after (code 0 [0x82, 0x07, 0x00]) (fun t => (t.sp, t.pc)) = some (0, 3) := by decide
theorem test_ldi_bad_index : after (code 0 [0x82, 0xFF, 0x05]) (fun t => (t.mode, t.pc)) =
    some (.error (.invalidRegister 0xFF) 0, 0) := by decide
theorem test_prn_sp : after (code 0 [0x47, 0x07]) (fun t => (t.out, t.pc)) = some ([244], 2) := by decide
theorem test_prn_bad_index : after (code 0 [0x47, 0x09]) (fun t => (t.mode, t.out)) =
    some (.error (.invalidRegister 9) 0, []) := by decide
theorem test_push_r7 : after (code 0 [0x45, 0x07]) (fun t => (t.sp, t.mem.read 0xF3)) = some (0xF3, 0xF3) := by decide
theorem test_push_at_zero : after ((code1 [0x45, 0x00] 0 7).setSp 0) (fun t => (t.mode, t.sp, t.mem.read 255, t.pc)) =
    some (.error (.outOfRange (-1)) 0, 0, 0, 0) := by decide
theorem test_pop_r7_adds_one : after ({ (code 0 [0x46, 0x07]).setSp 0xFF with
    mem := [(0, 0x46), (1, 0x07), (255, 0x10)] }) (fun t => (t.sp, t.mode)) = some (0x11, .running) := by decide
theorem test_pop_at_top : after ({ ((code 0 [0x46, 0x01]).setSp 0xFF).setReg 1 3 with
    mem := [(0, 0x46), (1, 0x01), (255, 9)] }) (fun t => (t.reg 1, t.sp, t.mode)) =
      some (3, 0xFF, .error (.outOfRange 256) 0) := by decide
theorem test_hlt_keeps_pc : after (code 11 [0x01]) (fun t => (t.mode, t.pc)) = some (.halted, 11) := by decide
theorem test_hlt_at_254_faults : after (code 254 [0x01]) (fun t => t.mode) = some (.error (.outOfRange 256) 254) := by decide
theorem test_add_wraps : after ((code1 [0xA0, 0x00, 0x01] 0 200).setReg 1 100) (fun t => (t.reg 0, t.pc)) =
    some (44, 3) := by decide
theorem test_add_checks_a_first : after (code 0 [0xA0, 0x09, 0x08]) (fun t => t.mode) =
    some (.error (.invalidRegister 9) 0) := by decide
theorem test_mul_exact : after ((code1 [0xA2, 0x00, 0x01] 0 255).setReg 1 255) (fun t => (t.out, t.reg 0, t.pc)) =
    some ([65025], 255, 3) := by decide
theorem test_mul_reference : after { code1 [0xA2, 0x00, 0x01] 0 8 with params := referenceParams } (fun t => t.pc) =
    some 2 := by decide
theorem test_call_r7 : after (code 6 [0x50, 0x07]) (fun t => (t.mem.read 0xF3, t.sp, t.pc)) = some (8, 0xF3, 0xF3) := by
  decide
theorem test_call_at_253 : after (code 253 [0x50, 0x00, 0x00]) (fun t => (t.mem.read 0xF3, t.pc)) = some (255, 0) := by decide
theorem test_ret : after ({ (code 0 [0x11]).setSp 0xF3 with mem := [(0, 0x11), (0xF3, 8)] }) (fun t => (t.pc, t.sp)) =
    some (8, 0xF4) := by decide
theorem test_ret_at_top : after ((code 0 [0x11]).setSp 0xFF) (fun t => (t.mode, t.sp)) =
    some (.error (.outOfRange 256) 0, 0xFF) := by decide

/-! ### The step: 95_test_vectors.md 2.2, and the host's entry -/

theorem test_fetch_at_256 : after (code 256 []) (fun t => (t.mode, t.pc)) = some (.error (.outOfRange 256) 256, 256) := by decide
theorem test_decode_before_operand_fetch : after (code 255 [0xFF]) (fun t => t.mode) =
    some (.error (.unknownOpcode 0xFF) 255) := by decide
theorem test_no_step_from_halted : nextOf (step { State.reset with mode := .halted }) = none := by decide
theorem test_with_fetch_word : after (State.reset.withFetchWord 24 0xFF0382) (fun t => (t.reg 3, t.pc)) =
    some (255, 3) := by decide
theorem test_load : (nextOf (State.reset.load [0x82, 0x00, 0x08])).map (fun t => (t.mem.read 0, t.mem.read 2, t.mem.read 3)) =
    some (0x82, 0x08, 0) := by decide
theorem test_error_codes : [Err.outOfRange (-1), .invalidRegister 8, .unknownOpcode 0, .unsupportedOperation .hlt].map Err.code =
    [1, 2, 3, 4] := by decide
theorem test_error_keeps_running_flag : (State.reset.raise (.unknownOpcode 0)).running = true := by decide

/-! ### Witnesses: a state and operands that meet the hypotheses of each statement -/

theorem witness_params : Params.default.wf ∧ referenceParams.wf ∧ otherParams.wf := by decide

theorem witness_DecodedBytesAreTheirEncoding : decode Params.default [0xA0, 0x07, 0x00, 0x99] = .ok (.add 7 0, [0x99]) := rfl

theorem witness_UnknownOpcodeIsFatal :
    (code 255 [0xFF]).params.wf ∧ (code 255 [0xFF]).mode = .running ∧ (code 255 [0xFF]).pc.toNat ≤ 255 ∧
      ∀ m ∈ Mnemonic.all, (code 255 [0xFF]).params.opcode.byte m ≠ opcodeByte (code 255 [0xFF]) := by decide

theorem witness_StepRunsFetchedInstruction :
    (code 253 [0x82, 0x00, 0x01]).mode = .running ∧ Fetched (code 253 [0x82, 0x00, 0x01]) (.ldi 0 1) :=
  ⟨rfl, by decide, _, rfl⟩

theorem witness_FetchErrorsInOrder :
    255 < (code 256 []).pc.toNat ∧
    (∀ m ∈ Mnemonic.all, (code 255 [0xFF]).params.opcode.byte m ≠ opcodeByte (code 255 [0xFF])) ∧
    ((code 254 [0x01]).pc.toNat = 254 ∧ (code 254 [0x01]).params.opcode.byte .hlt = opcodeByte (code 254 [0x01])) ∧
    ((code 255 [0x11]).pc.toNat = 255 ∧ (code 255 [0x11]).params.opcode.byte .ret = opcodeByte (code 255 [0x11])) := by decide

theorem witness_StepEndsInOneOfThreeWays :
    (code 0 [0x01]).mode = .running ∧ (State.reset.raise (.unknownOpcode 0)).mode ≠ .running ∧
      (State.reset.setMode .halted).mode ≠ .running := by decide

theorem witness_HaltedOnlyByHltAndForever :
    ((code 253 [0x01]).mode = .running ∧ Fetched (code 253 [0x01]) .hlt) ∧
    step (code 253 [0x01]) = .next ((code 253 [0x01]).setMode .halted) ∧
    ((code 253 [0x01]).setMode .halted).mode = .halted := ⟨⟨rfl, by decide, _, rfl⟩, rfl, rfl⟩

theorem witness_TerminalModesFaultByName :
    (State.reset.setMode .halted).mode = .halted ∧
    (State.reset.raise (.outOfRange 256)).mode = .error (.outOfRange 256) 0 := by decide

/-- The state of the invariant's witness: LDI at 253, the last place an instruction can stand. -/
theorem witness_StepKeepsInvariant :
    (code 253 [0x82, 0x00, 0x01]).Inv ∧ ∃ t, step (code 253 [0x82, 0x00, 0x01]) = .next t ∧ t.pc.toNat = 256 :=
  ⟨⟨by decide, by decide, by decide, by simp [code, State.reset], by simp [code, State.reset]⟩, _, rfl, by decide⟩

theorem witness_LoaderPlacesImage : (List.replicate 256 (1 : Byte)).length ≤ 256 ∧ 256 < (List.replicate 257 (1 : Byte)).length := by
  rw [List.length_replicate, List.length_replicate]; decide

theorem witness_LdiWritesImmediate : (7 : Byte).toNat < 8 ∧ (code 253 []).params.wf ∧ (code 253 []).pc.toNat ≤ 253 := by decide
theorem witness_PrnEmitsRegister : (7 : Byte).toNat < 8 ∧ (code 253 []).params.wf ∧ (code 253 []).pc.toNat ≤ 253 := by decide
theorem witness_PushStoresRegister : (7 : Byte).toNat < 8 ∧ (code 253 []).params.wf ∧ (code 253 []).pc.toNat ≤ 253 ∧
    sp ((code 253 []).setSp 1) ≠ 0 := by decide
theorem witness_PopLoadsRegister : (7 : Byte).toNat < 8 ∧ (code 253 []).params.wf ∧ (code 253 []).pc.toNat ≤ 253 ∧
    (((code 253 []).setSp 255).regs.set 7 (((code 253 []).setSp 255).mem.read 255))[7] ≠ 255 ∧
    (((code 253 []).setSp 254).regs.set 0 0)[7] ≠ 255 := by decide
theorem witness_HltStopsEngine : (code 253 []).pc.toNat ≤ 253 := by decide
theorem witness_AddWritesSum : (7 : Byte).toNat < 8 ∧ (0 : Byte).toNat < 8 ∧ (code 253 []).params.wf ∧
    (code 253 []).pc.toNat ≤ 253 := by decide
theorem witness_MulEmitsProduct : (7 : Byte).toNat < 8 ∧ (0 : Byte).toNat < 8 ∧ referenceParams.wf ∧
    ({ code 253 [] with params := referenceParams } : State).pc.toNat ≤ 253 := by decide
theorem witness_CallPushesAndJumps : (7 : Byte).toNat < 8 ∧ (code 253 []).pc.toNat ≤ 253 ∧ sp ((code 253 []).setSp 1) ≠ 0 := by
  decide
theorem witness_RetPopsPc : (code 253 []).pc.toNat ≤ 253 ∧ sp ((code 253 []).setSp 254) ≠ 255 := by decide

theorem witness_WindowErrorInEveryInstruction : 253 < (code 254 []).pc.toNat ∧ 255 < (code 256 []).pc.toNat := by decide

theorem witness_InvalidRegisterExactly :
    (code 253 []).mode = .running ∧ (code 253 []).pc.toNat ≤ 253 ∧ 8 ≤ (8 : Byte).toNat ∧ (7 : Byte).toNat < 8 ∧
    ∃ t, exec (.add 7 8) (code 253 []) = .next t ∧ t.mode = .error (.invalidRegister 8) 253 :=
  ⟨rfl, by decide, by decide, by decide, _, rfl, by decide⟩

theorem witness_StackPointerErrors :
    (7 : Byte).toNat < 8 ∧ (code 253 []).pc.toNat ≤ 253 ∧ sp ((code 253 []).setSp 0) = 0 ∧
    (((code 0 []).setSp 255).regs.set 0 0)[7] = 255 ∧
    (State.regs { code 0 [] with mem := [(0xF4, 0xFF)] } |>.set 7 (Memory.read [(0xF4, 0xFF)] 0xF4))[7] = 255 ∧
    sp ((code 0 []).setSp 255) = 255 := by decide

theorem witness_OutOfRangeCauses :
    (code 256 []).mode = .running ∧ 255 < (code 256 []).pc.toNat ∧
    (code 255 [0x01]).params.opcode.byte .hlt = opcodeByte (code 255 [0x01]) ∧
    (Fetched ((code 0 [0x45, 0x07]).setSp 0) (.push 7) ∧ sp ((code 0 [0x45, 0x07]).setSp 0) = 0) ∧
    (Fetched ((code 0 [0x50, 0x07]).setSp 0) (.call 7) ∧ sp ((code 0 [0x50, 0x07]).setSp 0) = 0) ∧
    (Fetched ((code 0 [0x46, 0x00]).setSp 255) (.pop 0) ∧ (((code 0 [0x46, 0x00]).setSp 255).regs.set 0 0)[7] = 255) ∧
    (Fetched ((code 0 [0x11]).setSp 255) .ret ∧ sp ((code 0 [0x11]).setSp 255) = 255) :=
  ⟨rfl, by decide, rfl, ⟨⟨by decide, _, rfl⟩, by decide⟩, ⟨⟨by decide, _, rfl⟩, by decide⟩, ⟨⟨by decide, _, rfl⟩, by decide⟩,
    ⟨by decide, _, rfl⟩, by decide⟩

theorem witness_ErrorsArePrecise :
    ∃ t, step (code 255 [0x01]) = .next t ∧ t.mode = .error (.outOfRange 256) 255 := ⟨_, rfl, by decide⟩

theorem witness_NonStoringFrame : ∃ t, exec (.pop 7) (code 0 []) = .next t ∧ t.mode = .running := ⟨_, rfl, by decide⟩

theorem witness_StoringFrame :
    (∃ t, exec (.push 7) (code 0 []) = .next t ∧ t.mem.read 0xF3 = 0xF3) ∧
    ∃ t, exec (.call 0) ((code 0 []).setSp 0) = .next t ∧ t.mode = .error (.outOfRange (-1)) 0 :=
  ⟨⟨_, rfl, by decide⟩, _, rfl, by decide⟩

theorem witness_RegistersReadAndWritten :
    (∃ t, exec (.ldi 7 1) (code 0 []) = .next t ∧ t.mode = .running) ∧ 7 ∉ readsRegisters (.ldi 7 1) ∧
    7 ∈ writesRegisters (.ldi 7 1) ∧ 0 ∉ writesRegisters (.ldi 7 1) ∧
    (∃ t, exec (.pop 0) ((code 0 []).setSp 255) = .next t ∧ t.mode = .error (.outOfRange 256) 0) ∧
    0 ∉ readsRegisters (.pop 0) ∧ (Instr.ldi 7 1).wf :=
  ⟨⟨_, rfl, by decide⟩, by decide, by decide, by decide, ⟨_, rfl, by decide⟩, by decide, by decide⟩

theorem witness_MemoryAccessesOfAStep :
    (∃ t, step (code 0 [0x45, 0x07]) = .next t ∧ t.mem.read 0xF3 ≠ (code 0 [0x45, 0x07]).mem.read 0xF3) ∧
    ((code 0 [0x45, 0x07]).mem.wf ∧ (255 : Nat) ≠ (sp (code 0 [0x45, 0x07])).toNat) ∧
    ∃ t, State.reset.load [0x01] = .next t ∧ t.mem.read 1 = 0 :=
  ⟨⟨_, rfl, by decide⟩, by decide, _, rfl, by decide⟩

theorem witness_step_of_a_program : ∃ t, step (code 0 [0x47, 0x07]) = .next t ∧ t.out = [244] := ⟨_, rfl, by decide⟩

theorem witness_PcAdvancesByInstructionLength :
    (code 253 [0x82, 0x00, 0x01]).params.wf ∧ (code 253 [0x82, 0x00, 0x01]).params.widthPolicy = .uniform ∧
    (∃ t, step (code 253 [0x82, 0x00, 0x01]) = .next t ∧ t.mode = .running) ∧
    (∀ a, ¬ Fetched (code 253 [0x82, 0x00, 0x01]) (.call a)) ∧ ¬ Fetched (code 253 [0x82, 0x00, 0x01]) .ret := by
  refine ⟨by decide, rfl, ⟨_, rfl, by decide⟩, ?_, ?_⟩
  · rintro a ⟨_, _, h⟩
    injection h with h
    cases h
  · rintro ⟨_, _, h⟩
    injection h with h
    cases h

/-- A run of one HLT. -/
theorem witness_RunWithoutCallOrRetIsBounded :
    ∃ (f : Nat → State) (n : Nat), (f 0).params.wf ∧ (f 0).pc = 0 ∧ 0 < n ∧
      ∀ k, k < n → step (f k) = .next (f (k + 1)) ∧ (f (k + 1)).safe ∧
        (∀ a, ¬ Fetched (f k) (.call a)) ∧ ¬ Fetched (f k) .ret := by
  refine ⟨fun k => if k = 0 then code 0 [0x01] else (code 0 [0x01]).setMode .halted, 1, by decide, rfl, by decide, ?_⟩
  intro k hk
  obtain rfl : k = 0 := by omega
  refine ⟨rfl, ?_, ?_, ?_⟩
  · intro e p h; cases h
  · rintro a ⟨_, _, h⟩; injection h with h; cases h
  · rintro ⟨_, _, h⟩; injection h with h; cases h

theorem witness_PushesThenPopsRestoreRegisters :
    (code 247 []).mem.wf ∧ (code 247 []).params.wf ∧ (∀ a ∈ [(7 : Byte), 0], a.toNat < 8) ∧
    [(7 : Byte), 0].length ≤ (sp ((code 247 []).setSp 2)).toNat ∧
    (code 247 []).pc.toNat + 4 * [(7 : Byte), 0].length ≤ 255 := by decide

theorem witness_PushThenPopCopies : (6 : Byte).toNat < 7 ∧ (0 : Byte).toNat < 7 ∧ (code 251 []).mem.wf ∧
    (code 251 []).params.wf ∧ (code 251 []).pc.toNat ≤ 251 ∧ sp ((code 251 []).setSp 1) ≠ 0 := by decide

theorem witness_CallThenRetReturns :
    (0 : Byte).toNat < 8 ∧ (code 253 []).mem.wf ∧ (code 253 []).pc.toNat ≤ 253 ∧ sp ((code 253 []).setSp 1) ≠ 0 ∧
    ∃ t, exec (.call 0) (code 253 []) = .next t ∧ t.pc.toNat ≤ 253 := by
  refine ⟨by decide, by decide, by decide, by decide, _, rfl, by decide⟩

/-- PUSH R0 at 0 with sp = 3 stores HLT's opcode, then a byte that is no opcode, over the next opcode byte; and CALL R7 jumps to the
return address it has just stored. -/
theorem witness_FetchSeesEarlierStore :
    ((code1 [0x45, 0x00] 0 1).setSp 3).mem.wf ∧
    (Fetched ((code1 [0x45, 0x00] 0 1).setSp 3) (.push 0) ∧ Fetched ((code1 [0x45, 0x00] 0 255).setSp 3) (.push 0) ∧
      Fetched (code 6 [0x50, 0x07]) (.call 7)) ∧
    (∃ t, step ((code1 [0x45, 0x00] 0 1).setSp 3) = .next t ∧ t.mode = .running ∧ t.pc.toNat + 0 = (sp t).toNat ∧
      decode t.params [1, 0, 0] = .ok (.hlt, [0, 0])) ∧
    (∃ t, step ((code1 [0x45, 0x00] 0 255).setSp 3) = .next t ∧ t.mode = .running ∧ t.pc.toNat ≤ 255 ∧
      ∀ m ∈ Mnemonic.all, t.params.opcode.byte m ≠ 255) ∧
    ∃ t, step (code 6 [0x50, 0x07]) = .next t ∧ t.mode = .running ∧ t.pc.toNat = (sp t).toNat ∧ t.mem.read t.pc.toNat = 8 :=
  ⟨by decide, ⟨⟨by decide, _, rfl⟩, ⟨by decide, _, rfl⟩, by decide, _, rfl⟩, ⟨_, rfl, by decide, by decide, rfl⟩,
    ⟨_, rfl, by decide, by decide, by decide⟩, _, rfl, by decide, by decide, by decide⟩

end Sys2Proof.Tests
end

section
/-! PROOF of O32 (10_state.md R22): how a register update passes through the state's operations, then what an instruction's
completion and its failure owe to each register. -/

namespace Sys2Proof.Machine

open Sys2Proof.Claims

/-! ### A register update and the other operations

`setReg` moves outward: past `emit`, `setPc`, `setMode`, `raise` and `advance` always, past `setReg` and the stack operations at
another register. -/

@[simp] theorem State.setReg_setReg_same (s : State) (r : Fin 8) (v w : Byte) :
    (s.setReg r v).setReg r w = s.setReg r w := by
  simp [State.setReg, Vector.set_set]

theorem State.setReg_comm (s : State) {r q : Fin 8} (h : r ≠ q) (v w : Byte) :
    (s.setReg r v).setReg q w = (s.setReg q w).setReg r v := by
  simp [State.setReg, Vector.set_comm _ _ (Fin.val_ne_of_ne h)]

@[simp] theorem State.emit_setReg (s : State) (r : Fin 8) (v : Byte) (n : Nat) :
    (s.setReg r v).emit n = (s.emit n).setReg r v := rfl
@[simp] theorem State.setPc_setReg (s : State) (r : Fin 8) (v : Byte) (p : Pc) :
    (s.setReg r v).setPc p = (s.setPc p).setReg r v := rfl
@[simp] theorem State.setMode_setReg (s : State) (r : Fin 8) (v : Byte) (m : Mode) :
    (s.setReg r v).setMode m = (s.setMode m).setReg r v := rfl
@[simp] theorem State.raise_setReg (s : State) (r : Fin 8) (v : Byte) (e : Err) :
    (s.setReg r v).raise e = (s.raise e).setReg r v := rfl
@[simp] theorem State.advance_setReg (s : State) (r : Fin 8) (v : Byte) (k : Mnemonic) :
    (s.setReg r v).advance k = (s.advance k).setReg r v := by
  simp [State.advance_eq]
@[simp] theorem State.returnAddress_setReg (s : State) (r : Fin 8) (v : Byte) :
    (s.setReg r v).returnAddress = s.returnAddress := rfl

theorem State.sp_setReg_other (s : State) {r : Fin 8} (h : r ≠ spIndex) (v : Byte) : (s.setReg r v).sp = s.sp :=
  s.reg_setReg_other v h.symm

/-- The stack pointer after a second update does not see a first one at another register. -/
theorem State.sp_setReg_setReg_other (s : State) {r : Fin 8} (h : r ≠ spIndex) (q : Fin 8) (v w : Byte) :
    ((s.setReg r v).setReg q w).sp = (s.setReg q w).sp := by
  simp [State.sp, State.reg_setReg, h.symm]

theorem State.setSp_setReg (s : State) {r : Fin 8} (h : r ≠ spIndex) (v w : Byte) :
    (s.setReg r v).setSp w = (s.setSp w).setReg r v :=
  s.setReg_comm h v w

theorem State.pushed_setReg (s : State) {r : Fin 8} (h : r ≠ spIndex) (v w : Byte) :
    (s.setReg r v).pushed w = (s.pushed w).setReg r v := by
  simp only [State.pushed, s.sp_setReg_other h, s.setSp_setReg h]
  rfl

/-! ### Completions -/

theorem val_eq_seven_iff_eq_spIndex {r : Fin 8} : r.val = 7 ↔ r = spIndex := Fin.eq_mk_iff_val_eq.symm

/-- The writes column of 10_state.md R22: a completed instruction keeps every other register. -/
theorem Completes.reg_eq_of_notMem_writes {i : Instr} {s t : State} (hc : Completes i s t) {r : Fin 8}
    (hw : r.val ∉ writesRegisters i) : t.reg r = s.reg r := by
  cases hc with
  | prn | mul | hlt => simp
  | ldi h | add h _ =>
    have ha : r ≠ ⟨_, h⟩ := by simpa [writesRegisters, ← Fin.eq_mk_iff_val_eq (hk := h)] using hw
    simp [State.reg_setReg_other _ _ ha]
  | push | call | ret =>
    have h7 : r ≠ spIndex := by simpa [writesRegisters, val_eq_seven_iff_eq_spIndex] using hw
    simp [State.reg_pushed, State.reg_setSp, h7]
  | pop h =>
    obtain ⟨ha, h7⟩ : r ≠ ⟨_, h⟩ ∧ r ≠ spIndex := by
      simpa [writesRegisters, ← Fin.eq_mk_iff_val_eq (hk := h), val_eq_seven_iff_eq_spIndex] using hw
    simp [State.reg_setSp, h7, State.reg_setReg_other _ _ ha]

/-- A register that an instruction writes and does not read (LDI's and POP's `x[A]`): its old value is lost. -/
theorem Completes.setReg_of_written {i : Instr} {s t : State} (hc : Completes i s t) {r : Fin 8}
    (hr : r.val ∉ readsRegisters i) (hw : r.val ∈ writesRegisters i) (v : Byte) : Completes i (s.setReg r v) t := by
  cases hc with
  | @ldi a b _ h =>
    obtain rfl : r = ⟨a.toNat, h⟩ := by simpa [writesRegisters, ← Fin.eq_mk_iff_val_eq (hk := h)] using hw
    simpa using Completes.ldi (b := b) (s := s.setReg ⟨a.toNat, h⟩ v) h
  | @pop a _ h hs =>
    have h7 : r ≠ spIndex := by simpa [readsRegisters, val_eq_seven_iff_eq_spIndex] using hr
    obtain rfl : r = ⟨a.toNat, h⟩ := by
      simpa [writesRegisters, ← Fin.eq_mk_iff_val_eq (hk := h), val_eq_seven_iff_eq_spIndex, h7] using hw
    have hsp := s.sp_setReg_other h7 v
    simpa [hsp] using Completes.pop (s := s.setReg ⟨a.toNat, h⟩ v) h (by simpa [hsp] using hs)
  | prn | mul | hlt => simp [writesRegisters] at hw
  | push | call | ret | add =>
    refine absurd ?_ hr
    simp_all [readsRegisters, writesRegisters]

/-- A register that an instruction neither reads nor writes: the instruction completes as before and carries the value through. -/
theorem Completes.setReg_of_unused {i : Instr} {s t : State} (hc : Completes i s t) {r : Fin 8}
    (hr : r.val ∉ readsRegisters i) (hw : r.val ∉ writesRegisters i) (v : Byte) :
    Completes i (s.setReg r v) (t.setReg r v) := by
  cases hc with
  | hlt => exact .hlt
  | @ldi a b _ h =>
    have ha : r ≠ ⟨a.toNat, h⟩ := by simpa [writesRegisters, ← Fin.eq_mk_iff_val_eq (hk := h)] using hw
    simpa [s.setReg_comm ha] using Completes.ldi (b := b) (s := s.setReg r v) h
  | @prn a _ h =>
    have ha : r ≠ ⟨a.toNat, h⟩ := by simpa [readsRegisters, ← Fin.eq_mk_iff_val_eq (hk := h)] using hr
    simpa [s.reg_setReg_other v ha.symm] using Completes.prn (s := s.setReg r v) h
  | @push a _ h hs =>
    obtain ⟨h7, ha⟩ : r ≠ spIndex ∧ r ≠ ⟨a.toNat, h⟩ := by
      simpa [readsRegisters, ← Fin.eq_mk_iff_val_eq (hk := h), val_eq_seven_iff_eq_spIndex] using hr
    have hsp := s.sp_setReg_other h7 v
    simpa [hsp, s.setSp_setReg h7, s.pushed_setReg h7, State.reg_setReg_other _ _ ha.symm] using
      Completes.push (s := s.setReg r v) h (by rwa [hsp])
  | @pop a _ h hs =>
    obtain ⟨ha, h7⟩ : r ≠ ⟨a.toNat, h⟩ ∧ r ≠ spIndex := by
      simpa [writesRegisters, ← Fin.eq_mk_iff_val_eq (hk := h), val_eq_seven_iff_eq_spIndex] using hw
    have hsp (u : State) := u.sp_setReg_other h7 v
    simpa [hsp, s.setReg_comm ha, State.setSp_setReg _ h7] using
      Completes.pop (s := s.setReg r v) h (by simpa [hsp, s.setReg_comm ha] using hs)
  | @add a b _ h hb =>
    obtain ⟨ha, hb'⟩ : r ≠ ⟨a.toNat, h⟩ ∧ r ≠ ⟨b.toNat, hb⟩ := by
      simpa [readsRegisters, ← Fin.eq_mk_iff_val_eq (hk := h), ← Fin.eq_mk_iff_val_eq (hk := hb)] using hr
    simpa [s.reg_setReg_other v ha.symm, s.reg_setReg_other v hb'.symm, s.setReg_comm ha] using
      Completes.add (s := s.setReg r v) h hb
  | @mul a b _ h hb =>
    obtain ⟨ha, hb'⟩ : r ≠ ⟨a.toNat, h⟩ ∧ r ≠ ⟨b.toNat, hb⟩ := by
      simpa [readsRegisters, ← Fin.eq_mk_iff_val_eq (hk := h), ← Fin.eq_mk_iff_val_eq (hk := hb)] using hr
    simpa [s.reg_setReg_other v ha.symm, s.reg_setReg_other v hb'.symm] using
      Completes.mul (s := s.setReg r v) h hb
  | @call a _ h hs =>
    obtain ⟨h7, ha⟩ : r ≠ spIndex ∧ r ≠ ⟨a.toNat, h⟩ := by
      simpa [readsRegisters, ← Fin.eq_mk_iff_val_eq (hk := h), val_eq_seven_iff_eq_spIndex] using hr
    have hsp := s.sp_setReg_other h7 v
    simpa [s.pushed_setReg h7, State.reg_setReg_other _ _ ha.symm] using
      Completes.call (s := s.setReg r v) h (by rwa [hsp])
  | ret hs =>
    have h7 : r ≠ spIndex := by simpa [readsRegisters, val_eq_seven_iff_eq_spIndex] using hr
    have hsp := s.sp_setReg_other h7 v
    simpa [hsp, s.setSp_setReg h7] using Completes.ret (s := s.setReg r v) (by rwa [hsp])

/-! ### Failures -/

/-- On one state an instruction raises one error. -/
theorem FailsWith.deterministic {i : Instr} {s : State} {e e' : Err} (h : FailsWith i s e) (h' : FailsWith i s e') :
    e = e' := by
  cases h with
  | window =>
    cases h' with
    | window => rfl
    | _ => omega
  | indexA _ hi =>
    cases h' with
    | window => omega
    | indexA _ hi' => cases hi.symm.trans hi'; rfl
    | indexB _ hi' => cases hi' ▸ hi; omega
    | push | call | pop => cases hi; omega
    | ret => cases hi
  | indexB _ hi =>
    cases h' with
    | window => omega
    | indexA _ hi' => cases hi ▸ hi'; omega
    | indexB _ hi' => cases hi.symm.trans hi'; rfl
    | push | call | pop | ret => cases hi
  | push | call | pop =>
    cases h' with
    | window => omega
    | indexA _ hi => cases hi; omega
    | indexB _ hi => cases hi
    | _ => rfl
  | ret =>
    cases h' with
    | window => omega
    | indexA _ hi | indexB _ hi => cases hi
    | ret => rfl

/-- The converse of `exec_next_cases` for a failure. -/
theorem FailsWith.exec_eq {i : Instr} {s : State} {e : Err} (h : FailsWith i s e) : exec i s = .next (s.raise e) := by
  rcases exec_fails_or_completes i s with ⟨e', he', hx⟩ | ⟨hp, t, ht, -⟩
  · rw [hx, h.deterministic he']
  · exact absurd ht (h.not_completes hp)

/-- A register outside the reads column does not decide whether an instruction fails, nor with what. -/
theorem FailsWith.setReg {i : Instr} {s : State} {e : Err} (hf : FailsWith i s e) {r : Fin 8}
    (hr : r.val ∉ readsRegisters i) (v : Byte) : FailsWith i (s.setReg r v) e := by
  have index_ne (h : 7 ∈ readsRegisters i) : r ≠ spIndex :=
    mt val_eq_seven_iff_eq_spIndex.mpr (ne_of_mem_of_not_mem h hr).symm
  have hsp (h : 7 ∈ readsRegisters i) : (s.setReg r v).sp = s.sp := s.sp_setReg_other (index_ne h) v
  cases hf with
  | window h => exact .window h
  | indexA hp hi h => exact .indexA hp hi h
  | indexB hp hi ha hb => exact .indexB hp hi ha hb
  | push hp h hs => exact .push hp h ((hsp (by simp [readsRegisters])).trans hs)
  | call hp h hs => exact .call hp h ((hsp (by simp [readsRegisters])).trans hs)
  | ret hp hs => exact .ret hp ((hsp (by simp [readsRegisters])).trans hs)
  | @pop _ a hp h hs =>
    have h7 : 7 ∈ readsRegisters (.pop a) := List.mem_singleton_self 7
    exact .pop hp h (by rwa [s.sp_setReg_setReg_other (index_ne h7), State.setReg_mem, hsp h7])

/-- No instruction whose register operands are all in 0..7 raises `InvalidRegisterError`. -/
theorem FailsWith.ne_invalidRegister {i : Instr} {s : State} {e : Err} (hf : FailsWith i s e) (hi : i.wf) (v : Byte) :
    e ≠ .invalidRegister v := by
  cases hf with
  | indexA _ h ha => exact absurd (hi _ (List.mem_of_head? h)) (Nat.not_lt.mpr ha)
  | indexB _ h _ hb => exact absurd (hi _ (h ▸ by simp)) (Nat.not_lt.mpr hb)
  | window | push | call | pop | ret => nofun

/-! ### The statement -/

/-- An instruction started RUNNING that completes is not in ERROR. -/
theorem Completes.mode_ne_error {i : Instr} {s t : State} (hc : Completes i s t) (hm : s.mode = .running) (e : Err) (p : Pc) :
    t.mode ≠ .error e p := by
  rw [hc.mode_eq, hm]
  split <;> nofun

/-- Settles O32 (10_state.md R22): an instruction fails or completes (`exec_next_cases`). A failure changes the mode alone and does
not look at the register; a completion keeps what is not written, and loses or carries the value of what is not read. -/
theorem registersReadAndWritten : Obligations.RegistersReadAndWritten := by
  intro i s t hm hx
  rcases exec_next_cases hx with ⟨e, hf, rfl⟩ | ⟨hp, hc⟩
  · refine ⟨fun _ _ _ => rfl, fun r h v hr => ⟨fun hw => absurd rfl (hw.2 e s.pc), fun _ => ?_⟩, fun hi v p => ?_⟩
    · exact (hf.setReg (r := ⟨r, h⟩) hr v).exec_eq
    · rintro ⟨⟩
      exact hf.ne_invalidRegister hi v rfl
  · refine ⟨fun r h hw => hc.reg_eq_of_notMem_writes (r := ⟨r, h⟩) hw, fun r h v hr => ⟨fun hw => ?_, fun hw => ?_⟩,
      fun _ _ _ => hc.mode_ne_error hm _ _⟩
    · exact (hc.setReg_of_written (r := ⟨r, h⟩) hr hw.1 v).exec_eq hp
    · have hw : r ∉ writesRegisters i := hw.resolve_right fun ⟨e, p, he⟩ => hc.mode_ne_error hm e p he
      exact (hc.setReg_of_unused (r := ⟨r, h⟩) hr hw v).exec_eq hp

end Sys2Proof.Machine
end

section
/-! PROOF of O33 (20_memory.md R43). The bytes a step writes are read off the completions. That it reads no others is said of two
states alike but for memory: where the two memories agree on the fetch window and on the popped byte, the step does the same, and
leaves memories that agree wherever they agreed before. -/

namespace Sys2Proof.Machine

open Sys2Proof.Claims

/-! ### Two memories -/

/-- The loader's writes leave the addresses past its bytes alone. -/
theorem Memory.read_writeBytes_past (m : Memory) {a y : Nat} (bs : List Byte) (h : a + bs.length ≤ y) :
    (m.writeBytes a bs).read y = m.read y := by
  induction bs generalizing m a with
  | nil => rfl
  | cons b bs ih =>
    rw [List.length_cons] at h
    calc ((m.write a b).writeBytes (a + 1) bs).read y
      _ = (m.write a b).read y := ih _ (by omega)
      _ = m.read y := m.read_write_other b (by omega)

/-- The same write keeps an agreement of two memories at an address. -/
theorem Memory.read_write_congr {m n : Memory} (hm : m.wf) (hn : n.wf) (a : Nat) (v : Byte) {y : Nat}
    (h : m.read y = n.read y) : (m.write a v).read y = (n.write a v).read y := by
  rw [Memory.read_write hm, Memory.read_write hn, h]

/-! ### Another memory in the same state

`withMem` moves outward past the operations that do not look at memory, and past a push, which stores into it. -/

/-- The state with its memory replaced. -/
def State.withMem (s : State) (m : Memory) : State := { s with mem := m }

@[simp] theorem State.withMem_mem (s : State) (m : Memory) : (s.withMem m).mem = m := rfl
@[simp] theorem State.withMem_pc (s : State) (m : Memory) : (s.withMem m).pc = s.pc := rfl
@[simp] theorem State.withMem_params (s : State) (m : Memory) : (s.withMem m).params = s.params := rfl
@[simp] theorem State.sp_withMem (s : State) (m : Memory) : (s.withMem m).sp = s.sp := rfl
@[simp] theorem State.reg_withMem (s : State) (m : Memory) (r : Fin 8) : (s.withMem m).reg r = s.reg r := rfl
@[simp] theorem State.emit_withMem (s : State) (m : Memory) (n : Nat) :
    (s.withMem m).emit n = (s.emit n).withMem m := rfl
@[simp] theorem State.setReg_withMem (s : State) (m : Memory) (r : Fin 8) (v : Byte) :
    (s.withMem m).setReg r v = (s.setReg r v).withMem m := rfl
@[simp] theorem State.setSp_withMem (s : State) (m : Memory) (v : Byte) :
    (s.withMem m).setSp v = (s.setSp v).withMem m := rfl
@[simp] theorem State.setPc_withMem (s : State) (m : Memory) (p : Pc) :
    (s.withMem m).setPc p = (s.setPc p).withMem m := rfl
@[simp] theorem State.raise_withMem (s : State) (m : Memory) (e : Err) :
    (s.withMem m).raise e = (s.raise e).withMem m := rfl
@[simp] theorem State.advance_withMem (s : State) (m : Memory) (k : Mnemonic) :
    (s.withMem m).advance k = (s.advance k).withMem m := by
  simp [State.advance_eq]

/-- A push stores its byte in whichever memory it finds. -/
theorem State.pushed_withMem (s : State) (m : Memory) (v : Byte) :
    (s.withMem m).pushed v = (s.pushed v).withMem (m.write (s.sp - 1).toNat v) := rfl

/-! ### Reads -/

theorem State.memRead_withMem {s : State} {m : Memory} {a : Nat} (h : m.read a = s.mem.read a) :
    (s.withMem m).memRead a = s.memRead a := by
  simp [State.memRead, h]

/-- The fetch reads the three bytes of its window. -/
theorem State.fetchInstr_withMem {s : State} {m : Memory}
    (h : ∀ k < 3, m.read (s.pc.toNat + k) = s.mem.read (s.pc.toNat + k)) :
    (s.withMem m).fetchInstr = s.fetchInstr := by
  have h0 : (s.withMem m).memRead s.pc.toNat = s.memRead s.pc.toNat := State.memRead_withMem (h 0 (by decide))
  have h1 := State.memRead_withMem (h 1 (by decide))
  have h2 := State.memRead_withMem (h 2 (by decide))
  simp only [State.fetchInstr, State.withMem_pc, State.withMem_params, h0, h1, h2]

/-- The instructions that read the byte at the stack pointer (20_memory.md R43). -/
def readsStack : Instr → Prop
  | .pop _ | .ret => True
  | _ => False

/-- Whether an instruction fails, and with what, depends on no byte but the popped one. -/
theorem FailsWith.withMem {i : Instr} {s : State} {e : Err} (hf : FailsWith i s e) {m : Memory}
    (htop : readsStack i → m.read s.sp.toNat = s.mem.read s.sp.toNat) : FailsWith i (s.withMem m) e := by
  cases hf with
  | window h => exact .window h
  | indexA hp hi h => exact .indexA hp hi h
  | indexB hp hi ha hb => exact .indexB hp hi ha hb
  | push hp h hs => exact .push hp h hs
  | call hp h hs => exact .call hp h hs
  | ret hp hs => exact .ret hp hs
  | pop hp h hs => exact .pop hp h (by simpa [htop trivial] using hs)

/-- A completion depends on no byte but the popped one: it leaves the same state but for memory, and the memories agree wherever
they agreed before. -/
theorem Completes.withMem {i : Instr} {s t : State} (hc : Completes i s t) {m : Memory} (hs : s.mem.wf) (hm : m.wf)
    (htop : readsStack i → m.read s.sp.toNat = s.mem.read s.sp.toNat) :
    ∃ m', Completes i (s.withMem m) (t.withMem m') ∧ ∀ y, m.read y = s.mem.read y → m'.read y = t.mem.read y := by
  cases hc with
  | @ldi a b _ h => exact ⟨m, by simpa using Completes.ldi (b := b) (s := s.withMem m) h, by simp⟩
  | prn h => exact ⟨m, by simpa using Completes.prn (s := s.withMem m) h, by simp⟩
  | hlt => exact ⟨m, .hlt, by simp⟩
  | add ha hb => exact ⟨m, by simpa using Completes.add (s := s.withMem m) ha hb, by simp⟩
  | mul ha hb => exact ⟨m, by simpa using Completes.mul (s := s.withMem m) ha hb, by simp⟩
  | pop h h255 =>
    have hc' := Completes.pop (s := s.withMem m) h (by simpa [htop trivial] using h255)
    exact ⟨m, by simpa [htop trivial] using hc', by simp⟩
  | ret h255 => exact ⟨m, by simpa [htop trivial] using Completes.ret (s := s.withMem m) h255, by simp⟩
  | push h h0 =>
    have hc' := Completes.push (s := s.withMem m) h h0
    rw [State.pushed_withMem, State.advance_withMem] at hc'
    refine ⟨_, hc', fun y hy => ?_⟩
    rw [State.advance_mem]
    exact Memory.read_write_congr hm hs _ _ hy
  | call h h0 =>
    exact ⟨_, Completes.call (s := s.withMem m) h h0, fun y hy => Memory.read_write_congr hm hs _ _ hy⟩

/-- A step depends on no byte but its fetch window and the popped one. -/
theorem step_withMem {s t : State} (hstep : step s = .next t) {m : Memory} (hs : s.mem.wf) (hm : m.wf)
    (hwindow : ∀ k < 3, m.read (s.pc.toNat + k) = s.mem.read (s.pc.toNat + k))
    (htop : ∀ i, Fetched s i → readsStack i → m.read s.sp.toNat = s.mem.read s.sp.toNat) :
    ∃ m', step (s.withMem m) = .next (t.withMem m') ∧ ∀ y, m.read y = s.mem.read y → m'.read y = t.mem.read y := by
  obtain ⟨hrun, h⟩ := step_next_inversion hstep
  have hstep' := step_running (s := s.withMem m) hrun
  rw [State.fetchInstr_withMem hwindow] at hstep'
  rcases h with ⟨e, he, rfl⟩ | ⟨i, hi, -, ⟨e, hf, rfl⟩ | ⟨hp, hc⟩⟩
  · exact ⟨m, by rw [hstep', he]; rfl, fun _ => id⟩
  · refine ⟨m, ?_, fun _ => id⟩
    rw [hstep', hi]
    exact (hf.withMem (htop i (State.fetchInstr_eq_ok.mp hi))).exec_eq
  · obtain ⟨m', hc', hagree⟩ := hc.withMem hs hm (htop i (State.fetchInstr_eq_ok.mp hi))
    refine ⟨m', ?_, hagree⟩
    rw [hstep', hi]
    exact hc'.exec_eq hp

/-! ### Writes -/

/-- A completion changes no byte but the one below the stack pointer, and that only in PUSH and CALL. -/
theorem Completes.mem_read_ne {i : Instr} {s t : State} (hc : Completes i s t) {x : Nat}
    (hx : t.mem.read x ≠ s.mem.read x) : (∃ a, i = .push a ∨ i = .call a) ∧ s.sp ≠ 0 ∧ x = (s.sp - 1).toNat := by
  cases hc with
  | push _ h0 =>
    rw [State.advance_mem] at hx
    exact ⟨⟨_, .inl rfl⟩, h0, not_imp_comm.mp (Memory.read_write_other _ _) hx⟩
  | call _ h0 => exact ⟨⟨_, .inr rfl⟩, h0, not_imp_comm.mp (Memory.read_write_other _ _) hx⟩
  | ldi | prn | pop | hlt | add | mul | ret => simp at hx

/-- A step changes no byte but the one below the stack pointer, and that only where PUSH or CALL was fetched. -/
theorem step_mem_read_ne {s t : State} (hstep : step s = .next t) {x : Nat} (hx : t.mem.read x ≠ s.mem.read x) :
    (∃ a, Fetched s (.push a) ∨ Fetched s (.call a)) ∧ s.sp ≠ 0 ∧ x = (s.sp - 1).toNat := by
  obtain ⟨-, ⟨e, -, rfl⟩ | ⟨i, hi, -, ⟨e, -, rfl⟩ | ⟨-, hc⟩⟩⟩ := step_next_inversion hstep
  · exact absurd rfl hx
  · exact absurd rfl hx
  · have hf : Fetched s i := State.fetchInstr_eq_ok.mp hi
    obtain ⟨⟨a, rfl | rfl⟩, hsp⟩ := hc.mem_read_ne hx
    · exact ⟨⟨a, .inl hf⟩, hsp⟩
    · exact ⟨⟨a, .inr hf⟩, hsp⟩

/-- The loader leaves the addresses past its image alone. -/
theorem State.load_mem_read_past {s t : State} {image : List Byte} (h : s.load image = .next t) {y : Nat}
    (hy : image.length ≤ y) : t.mem.read y = s.mem.read y := by
  unfold State.load at h
  split at h
  · cases h
    exact Memory.read_writeBytes_past _ image (by omega)
  · cases h

/-! ### The statement -/

/-- Settles O33 (20_memory.md R43): the writes by `step_mem_read_ne`, the reads by `step_withMem` for the memory with one byte
written, the loader by `State.load_mem_read_past`. -/
theorem memoryAccessesOfAStep : Obligations.MemoryAccessesOfAStep := by
  refine ⟨fun s t hstep => ⟨fun x hx => ?_, fun hwf x v hx h0 h1 h2 hsp => ?_⟩,
    fun _ _ _ h _ hy => State.load_mem_read_past h hy⟩
  · obtain ⟨hf, h0, rfl⟩ := step_mem_read_ne hstep hx
    have hpos : 0 < s.sp.toNat := by bv_omega
    exact ⟨hf, hpos, show (s.sp - 1).toNat = s.sp.toNat - 1 by bv_omega⟩
  · have hagree {y : Nat} (hy : y ≠ x) : (s.mem.write x v).read y = s.mem.read y := s.mem.read_write_other v hy
    have htop (i : Instr) (hf : Fetched s i) (hi : readsStack i) :
        (s.mem.write x v).read s.sp.toNat = s.mem.read s.sp.toNat := by
      refine hagree fun h => ?_
      obtain ⟨hret, hpop⟩ := hsp h.symm
      cases i with
      | pop a => exact hpop a hf
      | ret => exact hret hf
      | _ => exact hi
    obtain ⟨m', hstep', hm'⟩ := step_withMem hstep hwf (Memory.wf_write hwf (Nat.lt_succ_of_le hx) v)
      (fun k hk => hagree (by omega)) htop
    exact ⟨_, hstep', rfl, fun y hy => hm' y (hagree hy)⟩

end Sys2Proof.Machine
end

section
/-! PROOF of O6 and O4 (30_encoding.md R61, R65; 60_exceptions.md R163): the nine opcode bytes are all that `lookup` knows, so 247
bytes have no mnemonic; fetching one of those is an error, and no step leaves it; a known opcode byte takes exactly its own operand
bytes. -/

namespace Sys2Proof

/-! ### The decoder and a well-formed map -/

/-- A well-formed map's `lookup` and `byte` are inverse to each other. -/
theorem OpcodeMap.lookup_eq_some_iff {o : OpcodeMap} (h : o.wf) {ir : Byte} {m : Mnemonic} :
    o.lookup ir = some m ↔ o.byte m = ir :=
  ⟨OpcodeMap.byte_of_lookup, fun e => e ▸ OpcodeMap.lookup_byte h m⟩

theorem map_op_decodeOpcode (p : Params) (ir : Byte) : (decodeOpcode p ir).map Decoded.op = p.opcode.lookup ir := by
  rw [decodeOpcode, Option.map_map]
  exact Option.map_id' ..

theorem isSome_decodeOpcode_iff {p : Params} {ir : Byte} : (decodeOpcode p ir).isSome ↔ ∃ m, p.opcode.byte m = ir := by
  simp [← Option.ne_none_iff_isSome, decodeOpcode_eq_none]

/-- A known opcode byte takes as many of the bytes after it as it has operands, and leaves the others (30_encoding.md R61). -/
theorem decode_byte_cons {p : Params} (h : p.wf) (m : Mnemonic) {bs : List Byte} (hl : m.operandCount ≤ bs.length) :
    decode p (p.opcode.byte m :: bs) = .ok (m.withOperands (bs.getD 0 0) (bs.getD 1 0), bs.drop m.operandCount) := by
  have hd : decodeOpcode p (p.opcode.byte m) = some (p.record m) :=
    decodeOpcode_eq_some.mpr ⟨m, OpcodeMap.lookup_byte h m, rfl⟩
  simp only [decode, hd]
  exact if_neg (Nat.not_lt.mpr hl)

/-! ### Counting the opcode bytes -/

/-- The nine opcode bytes as numbers, in the table's order. -/
def OpcodeMap.codes (o : OpcodeMap) : List Nat := Mnemonic.all.map fun m => (o.byte m).toNat

theorem OpcodeMap.length_codes (o : OpcodeMap) : o.codes.length = 9 := rfl

theorem OpcodeMap.nodup_codes {o : OpcodeMap} (h : o.wf) : o.codes.Nodup :=
  List.Nodup.map (fun _ _ e => OpcodeMap.byte_injective h (BitVec.eq_of_toNat_eq e)) (by decide)

theorem OpcodeMap.mem_codes {o : OpcodeMap} {n : Nat} : n ∈ o.codes ↔ n < 256 ∧ ∃ m, o.byte m = BitVec.ofNat 8 n := by
  simp only [OpcodeMap.codes, List.mem_map, Mnemonic.mem_all, true_and]
  constructor
  · rintro ⟨m, rfl⟩
    exact ⟨(o.byte m).isLt, m, by simp⟩
  · rintro ⟨hn, m, hm⟩
    exact ⟨m, by simp [hm, Nat.mod_eq_of_lt hn]⟩

/-- The bytes with a record are the nine opcode bytes. -/
theorem filter_decodeOpcode_perm_codes {p : Params} (h : p.wf) :
    ((List.range 256).filter fun n => (decodeOpcode p (BitVec.ofNat 8 n)).isSome).Perm p.opcode.codes :=
  (List.perm_ext_iff_of_nodup (List.nodup_range.filter _) (OpcodeMap.nodup_codes h)).mpr fun n => by
    rw [List.mem_filter, List.mem_range, isSome_decodeOpcode_iff, OpcodeMap.mem_codes]

/-- All but nine of the 256 bytes have no record. -/
theorem length_filter_decodeOpcode_isNone {p : Params} (h : p.wf) :
    ((List.range 256).filter fun n => (decodeOpcode p (BitVec.ofNat 8 n)).isNone).length = 247 := by
  have hsplit := (List.range 256).length_eq_length_filter_add fun n => (decodeOpcode p (BitVec.ofNat 8 n)).isNone
  simp only [Option.not_isNone, (filter_decodeOpcode_perm_codes h).length_eq, OpcodeMap.length_codes,
    List.length_range] at hsplit
  omega

end Sys2Proof

namespace Sys2Proof.Machine

open Sys2Proof.Claims

/-! ### Fetching an unknown opcode byte -/

theorem State.fetchInstr_unknown {s : State} (hp : s.pc.toNat ≤ 255) (hu : ∀ m, s.params.opcode.byte m ≠ opcodeByte s) :
    s.fetchInstr = .error (.unknownOpcode (opcodeByte s)) := by
  have hread : s.memRead s.pc.toNat = .ok (opcodeByte s) := s.memRead_ok hp
  simp [State.fetchInstr, hread, decodeOpcode_eq_none.mpr hu]

/-- A RUNNING state at an unknown opcode byte: the step records the error and changes nothing else (60_exceptions.md R163). -/
theorem step_unknown {s : State} (hr : s.mode = .running) (hp : s.pc.toNat ≤ 255)
    (hu : ∀ m, s.params.opcode.byte m ≠ opcodeByte s) : step s = failed s (.unknownOpcode (opcodeByte s)) := by
  rw [step_running hr, State.fetchInstr_unknown hp hu]
  rfl

theorem step_ne_next {s : State} (h : s.mode ≠ .running) (t : State) : step s ≠ .next t :=
  fun hs => h (step_next_cases hs).1

/-! ### The statements -/

/-- Settles O6 (30_encoding.md R65, 60_exceptions.md R163): `lookup` inverts the opcode map, the bytes it knows are nine of 256, and
the error of the fetch leaves a mode from which there is no step. -/
theorem unknownOpcodeIsFatal : Obligations.UnknownOpcodeIsFatal := by
  intro p hp
  refine ⟨fun ir m => ?_, length_filter_decodeOpcode_isNone hp, ?_⟩
  · rw [map_op_decodeOpcode, OpcodeMap.lookup_eq_some_iff hp]
  · rintro s rfl hr hpc hu
    have hstep := step_unknown hr hpc hu
    refine ⟨hstep, fun t ht => step_ne_next ?_⟩
    cases hstep.symm.trans ht
    nofun

/-- Settles O4 (30_encoding.md R61): each clause is `decode_byte_cons` at its mnemonic, whose operand bytes are there. -/
theorem formatsPlaceOperandsAtOffsets : Obligations.FormatsPlaceOperandsAtOffsets := by
  intro p h a b rest
  have one : 1 ≤ (a :: rest).length := Nat.le_add_left 1 _
  have two : 2 ≤ (a :: b :: rest).length := Nat.le_add_left 2 _
  exact ⟨decode_byte_cons h .hlt (Nat.zero_le _), decode_byte_cons h .ret (Nat.zero_le _),
    decode_byte_cons h .prn one, decode_byte_cons h .push one, decode_byte_cons h .pop one, decode_byte_cons h .call one,
    decode_byte_cons h .ldi two, decode_byte_cons h .add two, decode_byte_cons h .mul two⟩

end Sys2Proof.Machine
end

section
/-! PROOF of O9 (40_execution_cycle.md R80): a RUNNING state always steps, and `step_next_inversion` with the mode of a completion
sorts the step into its three endings. -/

namespace Sys2Proof.Machine

open Sys2Proof.Claims

theorem State.fetched_of_fetchInstr {s : State} {i : Instr} (h : s.fetchInstr = .ok i) : Fetched s i :=
  State.fetchInstr_eq_ok.mp h

theorem step_next_of_running {s : State} (h : s.mode = .running) : ∃ t, step s = .next t := by
  rw [step_running h]
  cases s.fetchInstr with
  | error e => exact ⟨_, rfl⟩
  | ok i => exact exec_next i s

theorem Completes.mode_of_hlt {s t : State} (h : Completes .hlt s t) : t.mode = .halted :=
  h.mode_eq.trans (if_pos rfl)

theorem Completes.mode_of_ne_hlt {i : Instr} {s t : State} (h : Completes i s t) (hi : i ≠ .hlt) : t.mode = s.mode :=
  h.mode_eq.trans (if_neg hi)

/-- Settles O9 (40_execution_cycle.md R80): an error of the fetch or of the instruction replaces the mode alone; a completion is
HLT's, which halts, or another instruction's, which stays RUNNING. -/
theorem stepEndsInOneOfThreeWays : Obligations.StepEndsInOneOfThreeWays := by
  refine fun s => ⟨fun hr => ?_, step_ne_next⟩
  obtain ⟨t, ht⟩ := step_next_of_running hr
  refine ⟨t, ht, ?_⟩
  obtain ⟨-, ⟨e, -, rfl⟩ | ⟨i, hi, hx, ⟨e, -, rfl⟩ | ⟨-, hc⟩⟩⟩ := step_next_inversion ht
  · exact .inr (.inr ⟨e, rfl⟩)
  · exact .inr (.inr ⟨e, rfl⟩)
  · have hf := State.fetched_of_fetchInstr hi
    by_cases hh : i = .hlt
    · subst hh
      exact .inr (.inl ⟨hf, hx, hc.mode_of_hlt⟩)
    · exact .inl ⟨i, hf, hh, hx, (hc.mode_of_ne_hlt hh).trans hr⟩

end Sys2Proof.Machine
end

section
/-! PROOF of O10 (60_exceptions.md R173): the fetched instruction is the one that runs, and of a step's endings only the completion
of HLT is HALTED. -/

namespace Sys2Proof.Machine

open Sys2Proof.Claims

theorem step_of_fetched {s : State} {i : Instr} (hr : s.mode = .running) (hf : Fetched s i) : step s = exec i s := by
  rw [step_running hr, State.fetchInstr_eq_ok.mpr hf]

/-- A RUNNING state that fetches HLT halts, everything else kept: the fetch window is in range, so HLT raises no error. -/
theorem step_of_fetched_hlt {s : State} (hr : s.mode = .running) (hf : Fetched s .hlt) :
    step s = .next (s.setMode .halted) :=
  (step_of_fetched hr hf).trans (Completes.hlt.exec_eq hf.1)

/-- HALTED has no other way in: an error ends in ERROR, and another instruction's completion keeps RUNNING. -/
theorem fetched_hlt_of_step_halted {s t : State} (hs : step s = .next t) (ht : t.mode = .halted) :
    s.mode = .running ∧ Fetched s .hlt := by
  obtain ⟨hr, ⟨e, -, rfl⟩ | ⟨i, hi, -, ⟨e, -, rfl⟩ | ⟨-, hc⟩⟩⟩ := step_next_inversion hs
  · cases ht
  · cases ht
  · by_cases hh : i = .hlt
    · subst hh
      exact ⟨hr, State.fetched_of_fetchInstr hi⟩
    · cases ht.symm.trans ((hc.mode_of_ne_hlt hh).trans hr)

/-- Settles O10 (60_exceptions.md R173): the way into HALTED, that it is the only one, and that `step` starts from RUNNING alone. -/
theorem haltedOnlyByHltAndForever : Obligations.HaltedOnlyByHltAndForever := by
  refine fun s => ⟨fun hr hf => ⟨_, step_of_fetched_hlt hr hf, rfl⟩, fun t => fetched_hlt_of_step_halted, fun hh => step_ne_next ?_⟩
  rw [hh]
  nofun

end Sys2Proof.Machine
end

section
/-! PROOF of O1 and O2 (30_encoding.md sections 1 to 3): an encoding is an opcode byte and its operand bytes, and `decode` takes
exactly these. -/

namespace Sys2Proof

theorem encode_eq_cons (p : Params) (i : Instr) : encode p i = p.opcode.byte i.mnemonic :: i.operandBytes := by
  cases i <;> rfl

theorem Instr.length_operandBytes (i : Instr) : i.operandBytes.length = i.mnemonic.operandCount := by
  cases i <;> rfl

/-- An instruction is made of its mnemonic and its operand bytes, whatever stands after them. -/
theorem Instr.withOperands_operandBytes (i : Instr) (rest : List Byte) :
    i.mnemonic.withOperands ((i.operandBytes ++ rest).getD 0 0) ((i.operandBytes ++ rest).getD 1 0) = i := by
  cases i <;> rfl

/-- The converse: the operand bytes of the instruction made from a list are the bytes that stand first in it. -/
theorem Mnemonic.operandBytes_withOperands {m : Mnemonic} {bs : List Byte} (h : m.operandCount ≤ bs.length) :
    (m.withOperands (bs.getD 0 0) (bs.getD 1 0)).operandBytes = bs.take m.operandCount := by
  cases m with
  | hlt | ret => rfl
  | push | pop | prn | call =>
    obtain ⟨a, bs, rfl⟩ := List.exists_cons_of_length_pos h
    rfl
  | ldi | add | mul =>
    match bs, h with
    | a :: b :: bs, _ => rfl

/-- What a successful `decode` has found, for every map: a known opcode byte, and after it as many bytes as it has operands. -/
theorem decode_eq_ok {p : Params} {bs rest : List Byte} {i : Instr} (h : decode p bs = .ok (i, rest)) :
    ∃ m tl, bs = p.opcode.byte m :: tl ∧ m.operandCount ≤ tl.length ∧
      i = m.withOperands (tl.getD 0 0) (tl.getD 1 0) ∧ rest = tl.drop m.operandCount := by
  cases bs with
  | nil => cases h
  | cons ir tl =>
    cases hd : decodeOpcode p ir with
    | none => simp [decode, hd] at h
    | some d =>
      obtain ⟨m, hm, rfl⟩ := decodeOpcode_eq_some.mp hd
      by_cases hl : tl.length < m.operandCount
      · simp [decode, hd, Params.record, hl] at h
      · simp only [decode, hd, Params.record, hl, if_false, Except.ok.injEq, Prod.mk.injEq] at h
        exact ⟨m, tl, by rw [OpcodeMap.byte_of_lookup hm], Nat.le_of_not_lt hl, h.1.symm, h.2.symm⟩

/-- Settles O1: `decode_byte_cons` at the instruction's mnemonic, whose operand bytes stand at the head of what follows. -/
theorem decodeInvertsEncode : Obligations.DecodeInvertsEncode := by
  intro p h i rest
  have hl : i.mnemonic.operandCount ≤ (i.operandBytes ++ rest).length := by simp [i.length_operandBytes]
  rw [encode_eq_cons, List.cons_append, decode_byte_cons h _ hl, i.withOperands_operandBytes, ← i.length_operandBytes,
    List.drop_left]

/-- Settles O2: the bytes are the opcode byte that was looked up, the operand bytes, and the rest. -/
theorem decodedBytesAreTheirEncoding : Obligations.DecodedBytesAreTheirEncoding := by
  intro p bs rest i h
  obtain ⟨m, tl, rfl, hl, rfl, rfl⟩ := decode_eq_ok h
  rw [encode_eq_cons, Mnemonic.mnemonic_withOperands, Mnemonic.operandBytes_withOperands hl, List.cons_append,
    List.take_append_drop]

end Sys2Proof
end

section
/-! PROOF of O13 and O14: State.Inv holds at reset (10_state.md section 6), and an error or a completion keeps it (10_state.md
sections 2 and 3, 60_exceptions.md section 1). -/

namespace Sys2Proof

theorem OpcodeMap.wf_ls8 : OpcodeMap.ls8.wf := by decide

/-- No instruction is longer than three bytes, under either policy. -/
theorem Params.width_getD_le {p : Params} (h : p.wf) (m : Mnemonic) : (p.width m).getD 0 ≤ 3 := by
  by_cases hm : m = .mul
  · subst hm
    rw [Params.width_mul h]
    split <;> decide
  · by_cases hh : m = .hlt
    · subst hh
      unfold Params.width
      split
      · simp [OpcodeMap.uniformWidth_byte h, Mnemonic.operandCount]
      · simp [referenceWidth]
    · rw [Params.width_eq h hh hm]
      cases m <;> decide

end Sys2Proof

namespace Sys2Proof.Machine

/-! ### The pc -/

/-- Inside the window's range the advance does not wrap; `u` is `s` with other fields updated. -/
theorem State.toNat_pc_advance {s u : State} (hpar : u.params = s.params) (hpc : u.pc = s.pc) (h : s.params.wf)
    (hp : s.pc.toNat ≤ 253) (k : Mnemonic) :
    (u.advance k).pc.toNat = s.pc.toNat + (s.params.width k).getD 0 := by
  have hw := Params.width_getD_le h k
  rw [State.advance_eq, State.setPc_pc, hpar, hpc, BitVec.toNat_add, BitVec.toNat_ofNat]
  omega

/-- The instructions whose next pc is an advance by their own width. -/
def AdvancesPc (i : Instr) : Prop := i ≠ .hlt ∧ i ≠ .ret ∧ ∀ a, i ≠ .call a

theorem Completes.toNat_pc {i : Instr} {s t : State} (hc : Completes i s t) (hl : AdvancesPc i) (h : s.params.wf)
    (hp : s.pc.toNat ≤ 253) : t.pc.toNat = s.pc.toNat + (s.params.width i.mnemonic).getD 0 := by
  obtain ⟨hhlt, hret, hcall⟩ := hl
  cases hc with
  | ldi | prn | push | pop | add | mul => refine State.toNat_pc_advance ?_ ?_ h hp _ <;> rfl
  | hlt => exact absurd rfl hhlt
  | ret => exact absurd rfl hret
  | call => exact absurd rfl (hcall _)

theorem toNat_pcOfByte (v : Byte) : (pcOfByte v).toNat = v.toNat :=
  BitVec.toNat_setWidth_of_le (by decide)

/-- 10_state.md R24: a completion leaves pc in 0..256. -/
theorem Completes.pc_le {i : Instr} {s t : State} (hc : Completes i s t) (h : s.params.wf) (hp : s.pc.toNat ≤ 253) :
    t.pc.toNat ≤ 256 := by
  by_cases hl : AdvancesPc i
  · have hw := Params.width_getD_le h i.mnemonic
    rw [hc.toNat_pc hl h hp]
    omega
  · cases hc with
    | ldi | prn | push | pop | add | mul => exact absurd ⟨nofun, nofun, nofun⟩ hl
    | hlt => rw [State.setMode_pc]; omega
    | call | ret =>
      rw [State.setPc_pc, toNat_pcOfByte]
      omega

/-! ### The other fields -/

/-- A completion keeps memory canonical: what it stores, it stores at a byte address. -/
theorem Completes.mem_wf {i : Instr} {s t : State} (hc : Completes i s t) (h : s.mem.wf) : t.mem.wf := by
  cases hc with
  | ldi | prn | pop | hlt | add | mul | ret => simpa using h
  | push | call => simpa using Memory.wf_write h (s.sp - 1).isLt _

theorem aluMul_le (a b : Byte) : aluMul a b ≤ 65025 :=
  Nat.mul_le_mul (byte_le_255 a) (byte_le_255 b)

/-- 10_state.md section 3: a completion appends nothing, PRN's register or MUL's product. -/
theorem Completes.out_cases {i : Instr} {s t : State} (hc : Completes i s t) :
    t.out = s.out ∨
    (∃ (a : Byte) (h : a.toNat < 8), i = .prn a ∧ t.out = s.out ++ [(s.reg ⟨a.toNat, h⟩).toNat]) ∨
    (∃ (a b : Byte) (ha : a.toNat < 8) (hb : b.toNat < 8), i = .mul a b ∧
      t.out = s.out ++ [aluMul (s.reg ⟨a.toNat, ha⟩) (s.reg ⟨b.toNat, hb⟩)]) := by
  cases hc with
  | ldi | push | pop | hlt | add | call | ret => exact .inl (by simp)
  | prn h => exact .inr (.inl ⟨_, h, rfl, by simp⟩)
  | mul ha hb => exact .inr (.inr ⟨_, _, ha, hb, rfl, by simp⟩)

/-- 10_state.md R27: the emitted values stay at most 65025. -/
theorem Completes.out_le {i : Instr} {s t : State} (hc : Completes i s t) (h : ∀ v ∈ s.out, v ≤ 65025) :
    ∀ v ∈ t.out, v ≤ 65025 := by
  have appended {n : Nat} (hn : n ≤ 65025) : ∀ v ∈ s.out ++ [n], v ≤ 65025 :=
    List.forall_mem_append.mpr ⟨h, by simpa using hn⟩
  obtain e | ⟨a, ha, -, e⟩ | ⟨a, b, ha, hb, -, e⟩ := hc.out_cases <;> rw [e]
  · exact h
  · exact appended ((byte_le_255 _).trans (by decide))
  · exact appended (aluMul_le _ _)

/-! ### Error records -/

/-- The fetch's errors are legal where pc is in 0..256: past 255 pc can only be 256 (60_exceptions.md R161, R163). -/
theorem State.legal_of_fetchInstr_error {s : State} {e : Err} (hp : s.pc.toNat ≤ 256) (he : s.fetchInstr = .error e) :
    e.legal s.params := by
  obtain ⟨h, hx⟩ | ⟨-, hu, hx⟩ | ⟨-, -, -, hx⟩ | ⟨-, m, -, hx⟩ := s.fetchInstr_cases <;> cases he.symm.trans hx
  · exact .inr (by omega)
  · exact hu
  · exact .inr rfl

/-- An instruction's own errors are legal (60_exceptions.md R161, R162). -/
theorem FailsWith.legal {i : Instr} {s : State} {e : Err} (hf : FailsWith i s e) (hp : s.pc.toNat ≤ 253) (p : Params) :
    e.legal p := by
  cases hf with
  | window h => omega
  | indexA _ _ h | indexB _ _ _ h => exact h
  | push | call => exact .inl rfl
  | pop | ret => exact .inr rfl

/-! ### The invariant -/

theorem State.Inv.raise {s : State} (h : s.Inv) {e : Err} (he : e.legal s.params) : (s.raise e).Inv where
  memory := h.memory
  pcRange := h.pcRange
  parameters := h.parameters
  output := h.output
  errorRecord := by
    rintro _ _ ⟨⟩
    exact ⟨he, rfl⟩

theorem State.Inv.of_completes {i : Instr} {s t : State} (h : s.Inv) (hr : s.mode = .running) (hp : s.pc.toNat ≤ 253)
    (hc : Completes i s t) : t.Inv where
  memory := hc.mem_wf h.memory
  pcRange := hc.pc_le h.parameters hp
  parameters := hc.params_eq ▸ h.parameters
  output := hc.out_le h.output
  errorRecord e p he := absurd he (hc.mode_ne_error hr e p)

/-- Settles O13. -/
theorem resetMeetsInvariant : Obligations.ResetMeetsInvariant where
  memory := Memory.wf_nil
  pcRange := Nat.zero_le _
  parameters := OpcodeMap.wf_ls8
  output := nofun
  errorRecord := nofun

/-- Settles O14: an error of the fetch or of the instruction is legal and changes the mode alone; a completion keeps each clause. -/
theorem stepKeepsInvariant : Obligations.StepKeepsInvariant := by
  intro s t h hstep
  obtain ⟨hr, ⟨e, he, rfl⟩ | ⟨i, hi, -, ⟨e, hf, rfl⟩ | ⟨hp, hc⟩⟩⟩ := step_next_inversion hstep
  · exact h.raise (State.legal_of_fetchInstr_error h.pcRange he)
  · exact h.raise (hf.legal (State.fetched_of_fetchInstr hi).1 _)
  · exact h.of_completes hr hp hc

end Sys2Proof.Machine
end

section
/-! PROOF of O7, O8, O11 and O25 to O29 (40_execution_cycle.md sections 1, 3 and 4; 60_exceptions.md sections 1 and 2): which errors
a step ends in, and that each changes the mode alone. -/

namespace Sys2Proof.Machine

open Sys2Proof.Claims

/-! ### The step and its fetch -/

/-- Settles O7: `step_of_fetched` is the statement. -/
theorem stepRunsFetchedInstruction : Obligations.StepRunsFetchedInstruction :=
  fun _ _ => step_of_fetched

theorem step_of_fetch_error {s : State} {e : Err} (hr : s.mode = .running) (he : s.fetchInstr = .error e) :
    step s = failed s e := by
  rw [step_running hr, he]
  rfl

/-- The fetch's `OutOfRangeError`: pc itself is out of range, or an operand byte of the window is (40_execution_cycle.md R88). -/
theorem State.fetchInstr_eq_outOfRange_iff {s : State} {x : Int} :
    s.fetchInstr = .error (.outOfRange x) ↔
      (255 < s.pc.toNat ∧ x = s.pc.toNat) ∨
      (253 < s.pc.toNat ∧ s.pc.toNat ≤ 255 ∧ (∃ m, s.params.opcode.byte m = opcodeByte s) ∧ x = 256) := by
  obtain ⟨h, e⟩ | ⟨h, hu, e⟩ | ⟨h, h', hk, e⟩ | ⟨h, m, -, e⟩ := s.fetchInstr_cases
  · simp [e, h, Nat.not_le.mpr h, eq_comm (a := x)]
  · have hno : ¬ ∃ m, s.params.opcode.byte m = opcodeByte s := fun ⟨m, hm⟩ => hu m hm
    simp [e, Nat.not_lt.mpr h, hno]
  · have hyes : ∃ m, s.params.opcode.byte m = opcodeByte s := hk.imp fun _ => OpcodeMap.byte_of_lookup
    simp [e, h, h', hyes, Nat.not_lt.mpr h, eq_comm (a := x)]
  · simp [e, Nat.not_lt.mpr h, show ¬ 255 < s.pc.toNat by omega]

/-- Settles O8: each clause names a case of the fetch, whose conditions exclude the others. -/
theorem fetchErrorsInOrder : Obligations.FetchErrorsInOrder := by
  refine fun s hr => ⟨fun hp => ?_, step_unknown hr, fun hp hk => ?_⟩
  · exact step_of_fetch_error hr (State.fetchInstr_eq_outOfRange_iff.mpr (.inl ⟨hp, rfl⟩))
  · exact step_of_fetch_error hr (State.fetchInstr_eq_outOfRange_iff.mpr (.inr ⟨by omega, by omega, hk, rfl⟩))

/-- Settles O11: `step`, `runEnd` and `running` look at the mode first. -/
theorem terminalModesFaultByName : Obligations.TerminalModesFaultByName := by
  refine fun s => ⟨fun h => ?_, fun e p h => ?_⟩ <;> simp [step, State.runEnd, State.running, h]

/-! ### Errors of an instruction -/

/-- From RUNNING, an instruction is in ERROR after it exactly where it fails: a completion is not. -/
theorem exec_error_iff {i : Instr} {s : State} (hr : s.mode = .running) {e : Err} :
    (∃ t p, exec i s = .next t ∧ t.mode = .error e p) ↔ FailsWith i s e := by
  constructor
  · rintro ⟨t, p, hx, hm⟩
    obtain ⟨e', hf, rfl⟩ | ⟨-, hc⟩ := exec_next_cases hx
    · cases hm
      exact hf
    · exact absurd hm (hc.mode_ne_error hr e p)
  · exact fun hf => ⟨s.raise e, s.pc, hf.exec_eq, rfl⟩

/-- Settles O25: the window's error, whose info is the larger of pc and 256. -/
theorem windowErrorInEveryInstruction : Obligations.WindowErrorInEveryInstruction := by
  intro i s h
  rw [(FailsWith.window h : FailsWith i s _).exec_eq]
  have hinfo : ((max s.pc.toNat 256 : Nat) : Int) = if 255 < s.pc.toNat then (s.pc.toNat : Int) else 256 := by
    split <;> omega
  rw [hinfo]
  rfl

/-- `InvalidRegisterError` is an index check's: A's, or, where A passed, B's. -/
theorem failsWith_invalidRegister_iff {i : Instr} {s : State} {v : Byte} :
    FailsWith i s (.invalidRegister v) ↔ s.pc.toNat ≤ 253 ∧ 8 ≤ v.toNat ∧
      (i.registerBytes.head? = some v ∨ ∃ a, a.toNat < 8 ∧ i.registerBytes = [a, v]) := by
  constructor
  · intro hf
    cases hf with
    | indexA hp hi h => exact ⟨hp, h, .inl hi⟩
    | indexB hp hi ha hb => exact ⟨hp, hb, .inr ⟨_, ha, hi⟩⟩
  · rintro ⟨hp, hv, hi | ⟨a, ha, hi⟩⟩
    · exact .indexA hp hi hv
    · exact .indexB hp hi ha hv

/-- Settles O26: `failsWith_invalidRegister_iff`, read for each instruction's register operands. -/
theorem invalidRegisterExactly : Obligations.InvalidRegisterExactly := by
  refine fun i s v hr => ⟨?_, fun t p hx hm => ((exec_error_iff hr).mp ⟨t, p, hx, hm⟩).exec_eq⟩
  rw [exec_error_iff hr, failsWith_invalidRegister_iff]
  refine and_congr_right fun _ => ?_
  cases i with
  | hlt | ret => simp [Instr.registerBytes]
  | ldi a | prn a | push a | pop a | call a =>
    simp only [Instr.registerBytes, List.head?_cons, Option.some.injEq, List.cons.injEq, reduceCtorEq, and_false,
      exists_false, or_false]
    constructor
    · rintro ⟨h, rfl⟩; exact ⟨h, rfl⟩
    · rintro ⟨h, rfl⟩; exact ⟨h, rfl⟩
  | add a b | mul a b =>
    simp only [Instr.registerBytes, List.head?_cons, Option.some.injEq, List.cons.injEq, and_true]
    constructor
    · rintro ⟨h, rfl | ⟨_, ha, rfl, rfl⟩⟩
      · exact .inl ⟨h, rfl⟩
      · exact .inr ⟨ha, h, rfl⟩
    · rintro (⟨h, rfl⟩ | ⟨ha, h, rfl⟩)
      · exact ⟨h, .inl rfl⟩
      · exact ⟨h, .inr ⟨a, ha, rfl, rfl⟩⟩

/-- Settles O27: the four stack-pointer failures. -/
theorem stackPointerErrors : Obligations.StackPointerErrors :=
  fun _ _ ha hp => ⟨fun h0 => ⟨(FailsWith.push hp ha h0).exec_eq, (FailsWith.call hp ha h0).exec_eq⟩,
    fun h255 => (FailsWith.pop hp ha h255).exec_eq, fun h255 => (FailsWith.ret hp h255).exec_eq⟩

/-! ### Errors of a step -/

/-- A step's error is the fetch's or the fetched instruction's. -/
theorem step_error_iff {s : State} (hr : s.mode = .running) {e : Err} :
    (∃ t p, step s = .next t ∧ t.mode = .error e p) ↔
      s.fetchInstr = .error e ∨ ∃ i, Fetched s i ∧ FailsWith i s e := by
  constructor
  · rintro ⟨t, p, hstep, hm⟩
    obtain ⟨-, ⟨e', he, rfl⟩ | ⟨i, hi, hx⟩⟩ := step_next_cases hstep
    · cases hm
      exact .inl he
    · exact .inr ⟨i, State.fetched_of_fetchInstr hi, (exec_error_iff hr).mp ⟨t, p, hx, hm⟩⟩
  · rintro (he | ⟨i, hi, hf⟩)
    · exact ⟨s.raise e, s.pc, step_of_fetch_error hr he, rfl⟩
    · exact ⟨s.raise e, s.pc, (step_of_fetched hr hi).trans hf.exec_eq, rfl⟩

/-- `OutOfRangeError` of a fetched instruction: its window fits, so the stack pointer is at an end (40_execution_cycle.md R87). -/
theorem fetched_failsWith_outOfRange_iff {s : State} {x : Int} :
    (∃ i, Fetched s i ∧ FailsWith i s (.outOfRange x)) ↔
      ((∃ a : Byte, a.toNat < 8 ∧ (Fetched s (.push a) ∨ Fetched s (.call a))) ∧ sp s = 0 ∧ x = -1) ∨
      ((∃ (a : Byte) (ha : a.toNat < 8), Fetched s (.pop a) ∧
        (s.regs.set a.toNat (s.mem.read (sp s).toNat) ha)[7] = 255) ∧ x = 256) ∨
      (Fetched s .ret ∧ sp s = 255 ∧ x = 256) := by
  constructor
  · rintro ⟨i, hi, hf⟩
    have hp := hi.1
    cases hf with
    | window h => omega
    | @push _ a _ ha h0 => exact .inl ⟨⟨a, ha, .inl hi⟩, h0, rfl⟩
    | @call _ a _ ha h0 => exact .inl ⟨⟨a, ha, .inr hi⟩, h0, rfl⟩
    | @pop _ a _ ha h255 => exact .inr (.inl ⟨⟨a, ha, hi, h255⟩, rfl⟩)
    | ret _ h255 => exact .inr (.inr ⟨hi, h255, rfl⟩)
  · rintro (⟨⟨a, ha, hi | hi⟩, h0, rfl⟩ | ⟨⟨a, ha, hi, h255⟩, rfl⟩ | ⟨hi, h255, rfl⟩)
    · exact ⟨_, hi, .push hi.1 ha h0⟩
    · exact ⟨_, hi, .call hi.1 ha h0⟩
    · exact ⟨_, hi, .pop hi.1 ha h255⟩
    · exact ⟨_, hi, .ret hi.1 h255⟩

/-- Settles O28: the fetch's causes, then the fetched instruction's. -/
theorem outOfRangeCauses : Obligations.OutOfRangeCauses := by
  intro s x hr
  rw [step_error_iff hr, State.fetchInstr_eq_outOfRange_iff, fetched_failsWith_outOfRange_iff, or_assoc]

theorem State.fetchInstr_ne_unsupported (s : State) (m : Mnemonic) : s.fetchInstr ≠ .error (.unsupportedOperation m) := by
  obtain ⟨-, e⟩ | ⟨-, -, e⟩ | ⟨-, -, -, e⟩ | ⟨-, m, -, e⟩ := s.fetchInstr_cases <;> rw [e] <;> nofun

theorem FailsWith.ne_unsupported {i : Instr} {s : State} {e : Err} (hf : FailsWith i s e) (m : Mnemonic) :
    e ≠ .unsupportedOperation m := by
  cases hf <;> nofun

/-- Settles O29 (60_exceptions.md R164, R166): an error's next state is `State.raise`, and neither the fetch nor an instruction
raises the unsupported one. -/
theorem errorsArePrecise : Obligations.ErrorsArePrecise := by
  intro s t e p hstep hm
  obtain ⟨hr, ⟨e', he, rfl⟩ | ⟨i, -, -, ⟨e', hf, rfl⟩ | ⟨-, hc⟩⟩⟩ := step_next_inversion hstep
  · cases hm
    exact ⟨rfl, rfl, fun m h => s.fetchInstr_ne_unsupported m (h ▸ he)⟩
  · cases hm
    exact ⟨rfl, rfl, hf.ne_unsupported⟩
  · exact absurd hm (hc.mode_ne_error hr e p)

end Sys2Proof.Machine
end

section
/-! PROOF of O3, O5 and O12 (30_encoding.md section 2; 40_execution_cycle.md section 1; 10_state.md section 6): the decoder's
records, and what reset holds. -/

namespace Sys2Proof

theorem decodeOpcode_byte {p : Params} (h : p.wf) (m : Mnemonic) : decodeOpcode p (p.opcode.byte m) = some (p.record m) :=
  decodeOpcode_eq_some.mpr ⟨m, OpcodeMap.lookup_byte h m, rfl⟩

/-- HLT has no reference width (40_execution_cycle.md R83). -/
theorem Params.width_hlt {p : Params} (h : p.wf) :
    p.width .hlt = if p.widthPolicy = .uniform then some 1 else none := by
  have hu := OpcodeMap.uniformWidth_byte h .hlt
  unfold Params.width
  cases p.widthPolicy with
  | uniform => simp [hu, Mnemonic.operandCount]
  | reference => simp [referenceWidth]

/-- The record of a mnemonic, its width named. -/
theorem decodeOpcode_byte_of_width {p : Params} (h : p.wf) (m : Mnemonic) {w : Option Nat} (hw : p.width m = w) :
    decodeOpcode p (p.opcode.byte m) = some { p.record m with width := w } := by
  subst hw
  exact decodeOpcode_byte h m

/-- Settles O5: each opcode byte has its mnemonic's record, whose width is HLT's, MUL's or the operand count plus one. -/
theorem decoderRecordTable : Obligations.DecoderRecordTable := by
  intro p h
  have other (m : Mnemonic) (hh : m ≠ .hlt) (hm : m ≠ .mul) := decodeOpcode_byte_of_width h m (Params.width_eq h hh hm)
  exact ⟨decodeOpcode_byte_of_width h .hlt (Params.width_hlt h), other .ret nofun nofun, other .push nofun nofun,
    other .pop nofun nofun, other .prn nofun nofun, other .call nofun nofun, other .ldi nofun nofun,
    other .add nofun nofun, decodeOpcode_byte_of_width h .mul (Params.width_mul h)⟩

/-- Settles O3: nine words of the default table, and a byte that is none of its opcodes. -/
theorem specWordsDecode : Obligations.SpecWordsDecode :=
  ⟨rfl, rfl, rfl, rfl, rfl, rfl, rfl, rfl, rfl, rfl⟩

end Sys2Proof

namespace Sys2Proof.Machine

/-- Settles O12: every field of the reset state, the registers one by one. -/
theorem resetValues : Obligations.ResetValues := by
  refine ⟨fun _ => rfl, fun i hi => ?_, rfl, rfl, rfl, rfl, rfl⟩
  simp only [State.reset, Vector.getElem_set, Vector.getElem_replicate, eq_comm (a := 7)]
  rfl

end Sys2Proof.Machine
end

section
/-! PROOF of O16 to O24 (41_primary_dispatch.md, 42_alu_dispatch.md): each instruction's completion, with the pc's advance and the
registers it reads written out. -/

namespace Sys2Proof.Machine

open Sys2Proof.Claims

/-- An instruction that advances pc by its own length (all but HLT, MUL, CALL and RET) ends with that length added. -/
theorem Completes.exec_advance {i : Instr} {s u : State} {k : Mnemonic} (hc : Completes i s (u.advance k))
    (hp : s.pc.toNat ≤ 253) (hw : s.params.wf) (hh : k ≠ .hlt) (hm : k ≠ .mul) :
    exec i s = .next (u.setPc (u.pc + BitVec.ofNat 9 (k.operandCount + 1))) := by
  have hu : u.params = s.params := (u.advance_params k).symm.trans hc.params_eq
  rw [hc.exec_eq hp, State.advance_width (hu ▸ hw) hh hm]

/-- A register operand read after the decrement of the stack pointer: R7 is the decremented value (the spec's decision D7). -/
theorem State.reg_setSp_operand (s : State) {a : Byte} (h : a.toNat < 8) (v : Byte) :
    (s.setSp v).reg ⟨a.toNat, h⟩ = if a = 7 then v else s.regs[a.toNat] := by
  have ha : (⟨a.toNat, h⟩ : Fin 8) = spIndex ↔ a = 7 := by
    rw [spIndex, Fin.ext_iff, ← BitVec.toNat_inj]
    rfl
  simp only [State.reg_setSp, ha]
  rfl

/-- Settles O16. -/
theorem ldiWritesImmediate : Obligations.LdiWritesImmediate :=
  fun _ _ _ ha hw hp => (Completes.ldi ha).exec_advance hp hw nofun nofun

/-- Settles O17. -/
theorem prnEmitsRegister : Obligations.PrnEmitsRegister :=
  fun _ _ ha hw hp => (Completes.prn ha).exec_advance hp hw nofun nofun

/-- Settles O18: the stored byte is read after the decrement. -/
theorem pushStoresRegister : Obligations.PushStoresRegister := by
  intro a s ha hw hp h0
  rw [(Completes.push ha h0).exec_advance hp hw nofun nofun, State.reg_setSp_operand]
  rfl

/-- Settles O19. -/
theorem popLoadsRegister : Obligations.PopLoadsRegister := by
  intro a s ha hw hp regs h255
  exact (Completes.pop ha h255).exec_advance hp hw nofun nofun

/-- Settles O20. -/
theorem hltStopsEngine : Obligations.HltStopsEngine :=
  fun _ hp => ⟨Completes.hlt.exec_eq hp, rfl⟩

/-- Settles O21. -/
theorem addWritesSum : Obligations.AddWritesSum :=
  fun _ _ _ ha hb hw hp => (Completes.add ha hb).exec_advance hp hw nofun nofun

/-- Settles O22: the width of MUL goes by the policy. -/
theorem mulEmitsProduct : Obligations.MulEmitsProduct := by
  intro a b s ha hb hw hp
  rw [(Completes.mul ha hb).exec_eq hp, State.advance_mul (s := s.emit _) hw, apply_ite (BitVec.ofNat 9)]
  rfl

/-- Settles O23: the target is read after the push, which leaves the registers as the decrement does. -/
theorem callPushesAndJumps : Obligations.CallPushesAndJumps := by
  intro a s ha hp h0
  have hreg : (s.pushed s.returnAddress).reg ⟨a.toNat, ha⟩ = if a = 7 then sp s - 1 else s.regs[a.toNat] :=
    s.reg_setSp_operand ha (s.sp - 1)
  rw [(Completes.call ha h0).exec_eq hp, hreg, pcOfByte_eq, State.returnAddress_eq]
  rfl

/-- Settles O24. -/
theorem retPopsPc : Obligations.RetPopsPc := by
  intro s hp h255
  rw [(Completes.ret h255).exec_eq hp, pcOfByte_eq]
  rfl

end Sys2Proof.Machine
end

section
/-! PROOF of O15 (70_reset_and_hazards.md section 2): the bytes that the loader writes, read back. -/

namespace Sys2Proof.Machine

/-- A read after the loader's writes gives the image's byte inside it, and the old byte outside. -/
theorem Memory.read_writeBytes {m : Memory} (hm : m.wf) (bs : List Byte) {a : Nat} (h : a + bs.length ≤ Config.memSize)
    (x : Nat) : (m.writeBytes a bs).read x = if a ≤ x then bs.getD (x - a) (m.read x) else m.read x := by
  induction bs generalizing m a with
  | nil => simp [Memory.writeBytes]
  | cons b bs ih =>
    rw [List.length_cons] at h
    rw [Memory.writeBytes, ih (Memory.wf_write hm (by omega) b) (by omega), Memory.read_write hm]
    obtain hx | rfl | hx := Nat.lt_trichotomy x a
    · rw [if_neg (by omega), if_neg (by omega), if_neg (by omega)]
    · rw [if_neg (by omega), if_pos rfl, if_pos le_rfl, Nat.sub_self, List.getD_cons_zero]
    · rw [if_pos (by omega), if_neg (by omega), if_pos (by omega), show x - a = x - (a + 1) + 1 by omega,
        List.getD_cons_succ]

/-- A canonical memory in the place of another keeps the invariant. -/
theorem State.Inv.withMem {s : State} (h : s.Inv) {m : Memory} (hm : m.wf) : (s.withMem m).Inv where
  memory := hm
  pcRange := h.pcRange
  parameters := h.parameters
  output := h.output
  errorRecord := h.errorRecord

/-- Settles O15: the loader replaces the memory of reset, which is empty, by the image's bytes from address 0. -/
theorem loaderPlacesImage : Obligations.LoaderPlacesImage := by
  refine fun image => ⟨fun h => ?_, fun h => if_neg (Nat.not_le.mpr h)⟩
  have hsize : 0 + image.length ≤ Config.memSize := by rwa [Nat.zero_add]
  refine ⟨State.reset.withMem (State.reset.mem.writeBytes 0 image), if_pos h,
    resetMeetsInvariant.withMem (Memory.wf_writeBytes Memory.wf_nil image hsize), fun a => ?_, rfl⟩
  exact (Memory.read_writeBytes Memory.wf_nil image hsize a).trans (if_pos (Nat.zero_le a))

end Sys2Proof.Machine
end

section
/-! PROOF of O30 and O31 (10_state.md section 1): the frames, read off the laws of a completion. -/

namespace Sys2Proof.Machine

open Sys2Proof.Claims

/-- An instruction that is neither PRN nor MUL emits nothing. -/
theorem Completes.out_eq {i : Instr} {s t : State} (hc : Completes i s t) (h : ∀ a b, i ≠ .prn a ∧ i ≠ .mul a b) :
    t.out = s.out := by
  obtain e | ⟨a, -, rfl, -⟩ | ⟨a, b, -, -, rfl, -⟩ := hc.out_cases
  · exact e
  · exact absurd rfl (h a 0).1
  · exact absurd rfl (h a b).2

/-- Settles O30: a failure replaces the mode alone; a completion keeps what its writes column does not name. -/
theorem nonStoringFrame : Obligations.NonStoringFrame := by
  intro i s t hi hx
  obtain ⟨e, -, rfl⟩ | ⟨-, hc⟩ := exec_next_cases hx
  · exact ⟨fun _ => rfl, rfl, rfl, fun _ _ _ => rfl, fun _ => rfl, fun _ => .inr ⟨e, rfl⟩⟩
  · refine ⟨fun x => ?_, hc.fl_eq, hc.params_eq, fun r h hw => hc.reg_eq_of_notMem_writes (r := ⟨r, h⟩) hw, fun hout => ?_,
      fun hh => .inl (hc.mode_of_ne_hlt hh)⟩
    · by_contra hne
      obtain ⟨⟨a, h⟩, -⟩ := hc.mem_read_ne hne
      exact h.elim (hi a).1 (hi a).2
    · exact hc.out_eq hout

/-- Settles O31: the same laws, where the writes column is `x[7]` and the one byte that changes is below the stack pointer. -/
theorem storingFrame : Obligations.StoringFrame := by
  rintro i s t ⟨a, hi⟩ hx
  have hwrites : writesRegisters i = [7] := by obtain rfl | rfl := hi <;> rfl
  have hhlt : i ≠ .hlt := by obtain rfl | rfl := hi <;> nofun
  have hemit (a b : Byte) : i ≠ .prn a ∧ i ≠ .mul a b := by obtain rfl | rfl := hi <;> exact ⟨nofun, nofun⟩
  obtain ⟨e, -, rfl⟩ | ⟨-, hc⟩ := exec_next_cases hx
  · exact ⟨fun _ _ => rfl, rfl, rfl, rfl, fun _ _ _ => rfl, .inr ⟨e, rfl⟩⟩
  · refine ⟨fun x hne => ?_, hc.fl_eq, hc.params_eq, hc.out_eq hemit, fun r h h7 => ?_, .inl (hc.mode_of_ne_hlt hhlt)⟩
    · by_contra hread
      exact hne (hc.mem_read_ne hread).2.2
    · exact hc.reg_eq_of_notMem_writes (r := ⟨r, h⟩) (by simpa [hwrites] using h7)

end Sys2Proof.Machine
end

section
/-! PROOF of O34 and O35 (10_state.md section 3): a step neither reads `fl` nor reads the output. It is said of two states alike but
for these two fields: both step alike, `fl` stays, and both append the same values. -/

namespace Sys2Proof.Machine

open Sys2Proof.Claims

/-! ### Another flag register and another output in the same state -/

/-- The state with its flag register and its output replaced. -/
def State.withFlOut (s : State) (f : Byte) (l : List Nat) : State := { s with fl := f, out := l }

@[simp] theorem State.withFlOut_mem (s : State) (f : Byte) (l : List Nat) : (s.withFlOut f l).mem = s.mem := rfl
@[simp] theorem State.sp_withFlOut (s : State) (f : Byte) (l : List Nat) : (s.withFlOut f l).sp = s.sp := rfl
@[simp] theorem State.reg_withFlOut (s : State) (f : Byte) (l : List Nat) (r : Fin 8) :
    (s.withFlOut f l).reg r = s.reg r := rfl
@[simp] theorem State.setReg_withFlOut (s : State) (f : Byte) (l : List Nat) (r : Fin 8) (v : Byte) :
    (s.withFlOut f l).setReg r v = (s.setReg r v).withFlOut f l := rfl
@[simp] theorem State.setSp_withFlOut (s : State) (f : Byte) (l : List Nat) (v : Byte) :
    (s.withFlOut f l).setSp v = (s.setSp v).withFlOut f l := rfl
@[simp] theorem State.pushed_withFlOut (s : State) (f : Byte) (l : List Nat) (v : Byte) :
    (s.withFlOut f l).pushed v = (s.pushed v).withFlOut f l := rfl
@[simp] theorem State.emit_withFlOut (s : State) (f : Byte) (l : List Nat) (n : Nat) :
    (s.withFlOut f l).emit n = (s.emit n).withFlOut f (l ++ [n]) := rfl
@[simp] theorem State.setPc_withFlOut (s : State) (f : Byte) (l : List Nat) (p : Pc) :
    (s.withFlOut f l).setPc p = (s.setPc p).withFlOut f l := rfl
@[simp] theorem State.setMode_withFlOut (s : State) (f : Byte) (l : List Nat) (m : Mode) :
    (s.withFlOut f l).setMode m = (s.setMode m).withFlOut f l := rfl
@[simp] theorem State.raise_withFlOut (s : State) (f : Byte) (l : List Nat) (e : Err) :
    (s.withFlOut f l).raise e = (s.raise e).withFlOut f l := rfl
@[simp] theorem State.returnAddress_withFlOut (s : State) (f : Byte) (l : List Nat) :
    (s.withFlOut f l).returnAddress = s.returnAddress := rfl
@[simp] theorem State.advance_withFlOut (s : State) (f : Byte) (l : List Nat) (k : Mnemonic) :
    (s.withFlOut f l).advance k = (s.advance k).withFlOut f l := by
  simp only [State.advance_eq]
  rfl

/-- Whether an instruction fails, and with what, does not depend on the two fields. -/
theorem FailsWith.withFlOut {i : Instr} {s : State} {e : Err} (hf : FailsWith i s e) (f : Byte) (l : List Nat) :
    FailsWith i (s.withFlOut f l) e := by
  cases hf with
  | window h => exact .window h
  | indexA hp hi h => exact .indexA hp hi h
  | indexB hp hi ha hb => exact .indexB hp hi ha hb
  | push hp h hs => exact .push hp h hs
  | call hp h hs => exact .call hp h hs
  | pop hp h hs => exact .pop hp h hs
  | ret hp hs => exact .ret hp hs

/-- A completion carries the flag register through, and appends to another output the same values. -/
theorem Completes.withFlOut {i : Instr} {s t : State} (hc : Completes i s t) (f : Byte) (l : List Nat) :
    Completes i (s.withFlOut f l) (t.withFlOut f (l ++ t.out.drop s.out.length)) := by
  cases hc with
  | @ldi a b _ h => simpa using Completes.ldi (b := b) (s := s.withFlOut f l) h
  | prn h => simpa using Completes.prn (s := s.withFlOut f l) h
  | push h hs => simpa using Completes.push (s := s.withFlOut f l) h hs
  | pop h hs => simpa using Completes.pop (s := s.withFlOut f l) h hs
  | hlt => simpa using Completes.hlt (s := s.withFlOut f l)
  | add ha hb => simpa using Completes.add (s := s.withFlOut f l) ha hb
  | mul ha hb => simpa using Completes.mul (s := s.withFlOut f l) ha hb
  | call h hs => simpa using Completes.call (s := s.withFlOut f l) h hs
  | ret hs => simpa using Completes.ret (s := s.withFlOut f l) hs

/-- The whole step, in a state alike but for the two fields. -/
theorem step_withFlOut {s t : State} (h : step s = .next t) (f : Byte) (l : List Nat) :
    step (s.withFlOut f l) = .next (t.withFlOut f (l ++ t.out.drop s.out.length)) := by
  obtain ⟨hr, hx⟩ := step_next_inversion h
  have hstep := step_running (s := s.withFlOut f l) hr
  rw [show (s.withFlOut f l).fetchInstr = s.fetchInstr from rfl] at hstep
  obtain ⟨e, he, rfl⟩ | ⟨i, hi, -, ⟨e, hf, rfl⟩ | ⟨hp, hc⟩⟩ := hx
  · simp [hstep, he]
  · simp [hstep, hi, (hf.withFlOut f l).exec_eq]
  · simp [hstep, hi, (hc.withFlOut f l).exec_eq hp]

/-! ### The statements -/

/-- What a step does to the output: nothing, or one value of PRN or MUL. -/
theorem step_out_cases {s t : State} (h : step s = .next t) :
    t.out = s.out ∨
    (∃ (a : Byte) (ha : a.toNat < 8), Fetched s (.prn a) ∧ t.out = s.out ++ [(s.reg ⟨a.toNat, ha⟩).toNat]) ∨
    (∃ (a b : Byte) (ha : a.toNat < 8) (hb : b.toNat < 8), Fetched s (.mul a b) ∧
      t.out = s.out ++ [aluMul (s.reg ⟨a.toNat, ha⟩) (s.reg ⟨b.toNat, hb⟩)]) := by
  obtain ⟨-, ⟨e, -, rfl⟩ | ⟨i, hi, -, ⟨e, -, rfl⟩ | ⟨-, hc⟩⟩⟩ := step_next_inversion h
  · exact .inl rfl
  · exact .inl rfl
  · have hf := State.fetched_of_fetchInstr hi
    obtain ho | ⟨a, ha, rfl, ho⟩ | ⟨a, b, ha, hb, rfl, ho⟩ := hc.out_cases
    · exact .inl ho
    · exact .inr (.inl ⟨a, ha, hf, ho⟩)
    · exact .inr (.inr ⟨a, b, ha, hb, hf, ho⟩)

theorem step_out_prefix {s t : State} (h : step s = .next t) : s.out <+: t.out := by
  obtain e | ⟨_, _, -, e⟩ | ⟨_, _, _, _, -, e⟩ := step_out_cases h <;> rw [e]
  · exact List.prefix_append _ _
  · exact List.prefix_append _ _

theorem step_fl_params {s t : State} (h : step s = .next t) : t.fl = s.fl ∧ t.params = s.params := by
  obtain ⟨-, ⟨e, -, rfl⟩ | ⟨i, -, -, ⟨e, -, rfl⟩ | ⟨-, hc⟩⟩⟩ := step_next_inversion h
  · exact ⟨rfl, rfl⟩
  · exact ⟨rfl, rfl⟩
  · exact ⟨hc.fl_eq, hc.params_eq⟩

/-- Settles O34: `step_withFlOut` at the state's own output. -/
theorem flagRegisterIsInert : Obligations.FlagRegisterIsInert := by
  intro s t h
  obtain ⟨hfl, hpar⟩ := step_fl_params h
  have hout : s.out ++ t.out.drop s.out.length = t.out := List.prefix_append_drop (step_out_prefix h) |>.symm
  refine ⟨hfl, hpar, fun v => (step_withFlOut h v s.out).trans ?_⟩
  rw [hout]
  rfl

/-- Settles O35: `step_withFlOut` at the state's own flag register, which the step keeps. -/
theorem outputGrowsByPrnAndMulOnly : Obligations.OutputGrowsByPrnAndMulOnly := by
  intro s t h
  refine ⟨step_out_cases h, fun l => (step_withFlOut h s.fl l).trans ?_⟩
  rw [← (step_fl_params h).1]
  rfl

end Sys2Proof.Machine
end

section
/-! PROOF of O36 and O37 (40_execution_cycle.md section 4): a completion other than CALL, RET and HLT moves pc up by its width, 2
or 3, so a run without CALL and RET climbs by at least 2 in each step and leaves the window's range after 127. -/

namespace Sys2Proof.Machine

open Sys2Proof.Claims

/-! ### Lengths and widths -/

theorem length_encode (p : Params) (i : Instr) : (encode p i).length = i.mnemonic.operandCount + 1 := by
  rw [encode_eq_cons, List.length_cons, i.length_operandBytes]

/-- Such an instruction has an operand or two. -/
theorem AdvancesPc.operandCount_eq {i : Instr} (hl : AdvancesPc i) :
    i.mnemonic.operandCount = 1 ∨ i.mnemonic.operandCount = 2 := by
  obtain ⟨hhlt, hret, -⟩ := hl
  cases i with
  | hlt => exact absurd rfl hhlt
  | ret => exact absurd rfl hret
  | push | pop | prn | call => exact .inl rfl
  | ldi | add | mul => exact .inr rfl

/-- Under the uniform policy every width is the instruction's length (40_execution_cycle.md R83). -/
theorem Params.width_uniform {p : Params} (h : p.wf) (hu : p.widthPolicy = .uniform) (m : Mnemonic) :
    p.width m = some (m.operandCount + 1) := by
  rw [Params.width, hu, ← OpcodeMap.uniformWidth_byte h]

/-- Under either policy such an instruction advances by at least 2. -/
theorem AdvancesPc.two_le_width {i : Instr} (hl : AdvancesPc i) {p : Params} (h : p.wf) :
    2 ≤ (p.width i.mnemonic).getD 0 := by
  by_cases hm : i.mnemonic = .mul
  · rw [hm, Params.width_mul h]
    split <;> decide
  · have hh : i.mnemonic ≠ .hlt := by
      obtain ⟨hhlt, -, -⟩ := hl
      cases i with
      | hlt => exact absurd rfl hhlt
      | _ => nofun
    rw [Params.width_eq h hh hm, Option.getD_some]
    have := hl.operandCount_eq
    omega

/-! ### Committed steps -/

/-- A step that does not end in ERROR is the completion of the fetched instruction. -/
theorem completes_of_step_safe {s t : State} (h : step s = .next t) (ht : t.safe) :
    ∃ i, Fetched s i ∧ Completes i s t := by
  obtain ⟨-, ⟨e, -, rfl⟩ | ⟨i, hi, -, ⟨e, -, rfl⟩ | ⟨-, hc⟩⟩⟩ := step_next_inversion h
  · exact absurd rfl (ht e _)
  · exact absurd rfl (ht e _)
  · exact ⟨i, State.fetched_of_fetchInstr hi, hc⟩

theorem State.safe_of_running {s : State} (h : s.mode = .running) : s.safe :=
  fun e p he => by cases h.symm.trans he

/-- A step that stays RUNNING and fetched neither CALL nor RET completes an instruction that advances pc. -/
theorem advancesPc_of_step_running {s t : State} (h : step s = .next t) (ht : t.mode = .running)
    (hcall : ∀ a, ¬ Fetched s (.call a)) (hret : ¬ Fetched s .ret) :
    ∃ i, Fetched s i ∧ AdvancesPc i ∧ Completes i s t := by
  obtain ⟨i, hi, hc⟩ := completes_of_step_safe h (State.safe_of_running ht)
  refine ⟨i, hi, ⟨?_, ?_, fun a => ?_⟩, hc⟩
  · rintro rfl
    cases ht.symm.trans hc.mode_of_hlt
  · rintro rfl
    exact hret hi
  · rintro rfl
    exact hcall a hi

/-- Settles O36: the completion's pc, and the uniform width is the length. -/
theorem pcAdvancesByInstructionLength : Obligations.PcAdvancesByInstructionLength := by
  intro s t hw hu h ht hcall hret
  obtain ⟨i, hi, hl, hc⟩ := advancesPc_of_step_running h ht hcall hret
  refine ⟨i, hi, ?_, ?_⟩
  · rw [hc.toNat_pc hl hw hi.1, Params.width_uniform hw hu, length_encode, Option.getD_some]
  · rw [length_encode]
    have := hl.operandCount_eq
    omega

/-! ### A run of committed steps -/

/-- A committed step to which another step follows raises pc by at least 2 and keeps the parameters. -/
theorem toNat_pc_add_two_le {s t u : State} (hw : s.params.wf) (h : step s = .next t) (hnext : step t = .next u)
    (hcall : ∀ a, ¬ Fetched s (.call a)) (hret : ¬ Fetched s .ret) : s.pc.toNat + 2 ≤ t.pc.toNat ∧ t.params.wf := by
  obtain ⟨i, hi, hl, hc⟩ := advancesPc_of_step_running h (step_next_cases hnext).1 hcall hret
  rw [hc.toNat_pc hl hw hi.1, hc.params_eq]
  exact ⟨Nat.add_le_add_left (hl.two_le_width hw) _, hw⟩

/-- Settles O37: after k steps pc is at least 2k, and a step commits only from pc at most 253, so the last one has k at most 126. -/
theorem runWithoutCallOrRetIsBounded : Obligations.RunWithoutCallOrRetIsBounded := by
  intro f n hw _ hrun
  have climbs (k : Nat) (hk : k < n) : 2 * k ≤ (f k).pc.toNat ∧ (f k).params.wf := by
    induction k with
    | zero => exact ⟨Nat.zero_le _, hw⟩
    | succ k ih =>
      obtain ⟨hpc, hwk⟩ := ih (by omega)
      obtain ⟨hstep, -, hcall, hret⟩ := hrun k (by omega)
      obtain ⟨hpc', hw'⟩ := toNat_pc_add_two_le hwk hstep (hrun (k + 1) hk).1 hcall hret
      exact ⟨by omega, hw'⟩
  by_contra hn
  obtain ⟨hstep, hsafe, -⟩ := hrun 127 (by omega)
  obtain ⟨i, hi, -⟩ := completes_of_step_safe hstep hsafe
  have hpc := (climbs 127 (by omega)).1
  have := hi.1
  omega

end Sys2Proof.Machine
end

section
/-! PROOF of O38 to O41 (41_primary_dispatch.md, stack laws; 42_alu_dispatch.md section 3; 20_memory.md section 5): what a push
leaves in memory is what a later POP, RET or fetch finds there. -/

namespace Sys2Proof.Machine

open Sys2Proof.Claims

/-! ### Writing a register's own value, and the ends of the stack -/

@[simp] theorem State.setReg_reg_self (s : State) (r : Fin 8) : s.setReg r (s.reg r) = s := by
  simp [State.setReg, State.reg]

theorem State.setSp_eq_self {s : State} {v : Byte} (h : s.sp = v) : s.setSp v = s :=
  h ▸ s.setReg_reg_self spIndex

@[simp] theorem State.setSp_setSp (s : State) (v w : Byte) : (s.setSp v).setSp w = s.setSp w :=
  s.setReg_setReg_same spIndex v w

@[simp] theorem State.sp_pushed (s : State) (v : Byte) : (s.pushed v).sp = s.sp - 1 :=
  s.sp_setSp (s.sp - 1)

/-- A push stores its byte where it leaves the stack pointer. -/
theorem State.read_pushed_top {s : State} (hm : s.mem.wf) (v : Byte) : (s.pushed v).mem.read (s.pushed v).sp.toNat = v := by
  rw [State.sp_pushed]
  exact Memory.read_write_same hm.1 _ v

@[simp] theorem State.sp_setPc (s : State) (p : Pc) : (s.setPc p).sp = s.sp := rfl

theorem sub_one_ne_top {v : Byte} (h : v ≠ 0) : v - 1 ≠ 255 := by bv_omega

theorem toNat_add_two {p : Pc} (h : p.toNat ≤ 253) : (p + 2).toNat = p.toNat + 2 := by bv_omega

/-! ### PUSH and POP -/

/-- The state that PUSH leaves. -/
def State.afterPush (s : State) {a : Byte} (h : a.toNat < 8) : State :=
  (s.pushed ((s.setSp (s.sp - 1)).reg ⟨a.toNat, h⟩)).setPc (s.pc + 2)

@[simp] theorem State.sp_afterPush (s : State) {a : Byte} (h : a.toNat < 8) : (s.afterPush h).sp = s.sp - 1 := by
  rw [State.afterPush, State.sp_setPc, State.sp_pushed]

theorem State.toNat_pc_afterPush {s : State} (hp : s.pc.toNat ≤ 253) {a : Byte} (h : a.toNat < 8) :
    (s.afterPush h).pc.toNat = s.pc.toNat + 2 :=
  toNat_add_two hp

theorem exec_push {a : Byte} {s : State} (ha : a.toNat < 8) (hw : s.params.wf) (hp : s.pc.toNat ≤ 253) (h0 : s.sp ≠ 0) :
    exec (.push a) s = .next (s.afterPush ha) :=
  (Completes.push ha h0).exec_advance hp hw nofun nofun

/-- The pushed byte is the register's value after the decrement, R7 included (the spec's decision D7). -/
theorem State.read_afterPush_top {s : State} (hm : s.mem.wf) {a : Byte} (ha : a.toNat < 8) :
    (s.afterPush ha).mem.read (s.sp - 1).toNat = (s.afterPush ha).reg ⟨a.toNat, ha⟩ :=
  Memory.read_write_same hm.1 _ ((s.afterPush ha).reg ⟨a.toNat, ha⟩)

/-- POP of the value that the register already holds changes the stack pointer and pc alone. -/
theorem exec_pop_of_read_eq_reg {a : Byte} {s : State} (ha : a.toNat < 8) (hw : s.params.wf) (hp : s.pc.toNat ≤ 253)
    (h255 : s.sp ≠ 255) (hread : s.mem.read s.sp.toNat = s.reg ⟨a.toNat, ha⟩) :
    exec (.pop a) s = .next ((s.setSp (s.sp + 1)).setPc (s.pc + 2)) := by
  have hsame : s.setReg ⟨a.toNat, ha⟩ (s.mem.read s.sp.toNat) = s := by rw [hread, State.setReg_reg_self]
  have hc := Completes.pop (s := s) ha (by rwa [hsame])
  rw [hsame] at hc
  exact hc.exec_advance hp hw nofun nofun

/-- POP into a register other than R7. -/
theorem exec_pop_other {a : Byte} {s : State} (ha : a.toNat < 8) (h7 : (⟨a.toNat, ha⟩ : Fin 8) ≠ spIndex) (hw : s.params.wf)
    (hp : s.pc.toNat ≤ 253) (h255 : s.sp ≠ 255) :
    exec (.pop a) s =
      .next (((s.setReg ⟨a.toNat, ha⟩ (s.mem.read s.sp.toNat)).setSp (s.sp + 1)).setPc (s.pc + 2)) := by
  have hsp := s.sp_setReg_other h7 (s.mem.read s.sp.toNat)
  rw [(Completes.pop ha (by rwa [hsp])).exec_advance hp hw nofun nofun, hsp]
  rfl

/-! ### Any number of PUSHes and POPs -/

theorem execAll_append (is js : List Instr) (s : State) : execAll (is ++ js) s = (execAll is s).bind (execAll js) := by
  induction is generalizing s with
  | nil => rfl
  | cons i is ih =>
    obtain ⟨t, ht⟩ := exec_next i s
    simp only [List.cons_append, execAll, ht, ih]

theorem execAll_singleton {i : Instr} {s t : State} (h : exec i s = .next t) : execAll [i] s = some t := by
  simp only [execAll, h]

/-- PUSHes of a list of registers and then POPs in reverse order. -/
def pushesThenPops (rs : List Byte) : List Instr := rs.map Instr.push ++ rs.reverse.map Instr.pop

/-- The first PUSH and the last POP enclose the others. -/
theorem pushesThenPops_cons (a : Byte) (rs : List Byte) :
    pushesThenPops (a :: rs) = .push a :: (pushesThenPops rs ++ [.pop a]) := by
  simp [pushesThenPops]

/-- `u` is `s` after `n` PUSHes and `n` POPs of two bytes each: pc has moved past them, and the registers, the mode, the
output, the parameters and the memory from the stack pointer up are as before. -/
structure Restored (n : Nat) (s u : State) : Prop where
  regs : u.regs = s.regs
  mode : u.mode = s.mode
  out : u.out = s.out
  params : u.params = s.params
  pc : u.pc.toNat = s.pc.toNat + 4 * n
  mem : ∀ x, s.sp.toNat ≤ x → u.mem.read x = s.mem.read x

/-- One PUSH before and one POP after a restoring run make a restoring run: the POP finds the pushed byte at the stack pointer. -/
theorem Restored.push_pop {n : Nat} {a : Byte} {s u : State} (ha : a.toNat < 8) (hm : s.mem.wf) (hw : s.params.wf)
    (h0 : s.sp ≠ 0) (hp : s.pc.toNat + 4 * (n + 1) ≤ 255) (hu : Restored n (s.afterPush ha) u) :
    ∃ w, exec (.pop a) u = .next w ∧ Restored (n + 1) s w := by
  have hpc : u.pc.toNat = s.pc.toNat + 2 + 4 * n := by rw [hu.pc, State.toNat_pc_afterPush (by omega)]
  have hsp : u.sp = s.sp - 1 := (State.reg_congr hu.regs spIndex).trans (s.sp_afterPush ha)
  have hread : u.mem.read u.sp.toNat = u.reg ⟨a.toNat, ha⟩ := by
    rw [hsp, hu.mem _ (by rw [State.sp_afterPush]), State.reg_congr hu.regs, State.read_afterPush_top hm]
  have hregs : (u.setSp s.sp).regs = s.regs :=
    calc (u.setSp s.sp).regs
      _ = ((s.setSp (s.sp - 1)).setSp s.sp).regs := congrArg (Vector.set · 7 s.sp) hu.regs
      _ = s.regs := by rw [State.setSp_setSp, State.setSp_eq_self rfl]
  refine ⟨_, exec_pop_of_read_eq_reg ha (by rwa [hu.params]) (by omega) (hsp ▸ sub_one_ne_top h0) hread, ?_⟩
  rw [hsp, BitVec.sub_add_cancel]
  refine ⟨hregs, hu.mode, hu.out, hu.params, ?_, fun x hx => ?_⟩
  · rw [State.setPc_pc, toNat_add_two (by omega)]
    omega
  · have hlt : (s.sp - 1).toNat < x := by bv_omega
    exact (hu.mem x (by rw [State.sp_afterPush]; exact hlt.le)).trans (Memory.read_write_other _ _ hlt.ne')

theorem execAll_pushesThenPops (rs : List Byte) (s : State) (hm : s.mem.wf) (hw : s.params.wf)
    (hrs : ∀ a ∈ rs, a.toNat < 8) (hsp : rs.length ≤ s.sp.toNat) (hp : s.pc.toNat + 4 * rs.length ≤ 255) :
    ∃ u, execAll (pushesThenPops rs) s = some u ∧ Restored rs.length s u := by
  induction rs generalizing s with
  | nil => exact ⟨s, rfl, rfl, rfl, rfl, rfl, rfl, fun _ _ => rfl⟩
  | cons a rs ih =>
    rw [List.length_cons] at hsp hp
    obtain ⟨ha, hrs⟩ := List.forall_mem_cons.mp hrs
    have h0 : s.sp ≠ 0 := by bv_omega
    have hpc := State.toNat_pc_afterPush (s := s) (by omega) ha
    obtain ⟨u, hu, hrest⟩ := ih (s.afterPush ha) (Memory.wf_write hm (s.sp - 1).isLt _) hw hrs
      (by rw [State.sp_afterPush]; bv_omega) (by omega)
    obtain ⟨w, hpop, hw'⟩ := hrest.push_pop ha hm hw h0 hp
    refine ⟨w, ?_, hw'⟩
    rw [pushesThenPops_cons]
    simp only [execAll, exec_push ha hw (show s.pc.toNat ≤ 253 by omega) h0]
    rw [execAll_append, hu, Option.bind_some, execAll_singleton hpop]

/-- Settles O38: `execAll_pushesThenPops`, by induction on the registers from the outermost pair inwards. -/
theorem pushesThenPopsRestoreRegisters : Obligations.PushesThenPopsRestoreRegisters := by
  intro rs s hm hw hrs hsp hp
  obtain ⟨u, hu, h⟩ := execAll_pushesThenPops rs s hm hw hrs hsp hp
  exact ⟨u, hu, h.regs, h.mode, h.out, h.pc, h.mem⟩

/-! ### PUSH and then POP into another register -/

/-- A register update between a move of the stack pointer and its move back. -/
theorem State.setSp_setReg_setSp (s : State) {r : Fin 8} (h : r ≠ spIndex) (v w : Byte) :
    ((s.setSp w).setReg r v).setSp s.sp = s.setReg r v := by
  rw [State.setSp_setReg _ h, State.setSp_setSp, State.setSp_eq_self rfl]

/-- The same after a PUSH: only the stored byte and pc are left of it. -/
theorem State.setSp_setReg_afterPush (s : State) {a : Byte} (ha : a.toNat < 8) {r : Fin 8} (h : r ≠ spIndex) (v : Byte) :
    ((s.afterPush ha).setReg r v).setSp s.sp = ((s.setReg r v).withMem (s.afterPush ha).mem).setPc (s.pc + 2) := by
  rw [← s.setSp_setReg_setSp h v (s.sp - 1)]
  rfl

theorem ne_spIndex_of_lt {r : Fin 8} (h : r.val < 7) : r ≠ spIndex := Fin.ne_of_lt h

/-- Settles O39: the POP finds the pushed byte, and its increment undoes the PUSH's decrement. -/
theorem pushThenPopCopies : Obligations.PushThenPopCopies := by
  intro a b s ha hb hm hw hp h0
  have ha8 : a.toNat < 8 := by omega
  have hb8 : b.toNat < 8 := by omega
  have hne : (⟨b.toNat, hb8⟩ : Fin 8) ≠ spIndex := ne_spIndex_of_lt hb
  have hv : (s.setSp (s.sp - 1)).reg ⟨a.toNat, ha8⟩ = s.regs[a.toNat] := s.reg_setReg_other _ (ne_spIndex_of_lt ha)
  have hread : (s.afterPush ha8).mem.read (s.sp - 1).toNat = s.regs[a.toNat] :=
    (State.read_afterPush_top hm ha8).trans hv
  have hpush := exec_push ha8 hw (show s.pc.toNat ≤ 253 by omega) h0
  have hpc := State.toNat_pc_afterPush (s := s) (by omega) ha8
  have hpop := exec_pop_other (s := s.afterPush ha8) hb8 hne hw (by omega) (s.sp_afterPush ha8 ▸ sub_one_ne_top h0)
  rw [State.sp_afterPush, BitVec.sub_add_cancel, hread, State.setSp_setReg_afterPush s ha8 hne] at hpop
  simp only [execAll, hpush, hpop]
  have hadd : s.pc + 2 + 2 = s.pc + 4 := BitVec.add_assoc ..
  rw [State.afterPush, hv, State.setPc_pc, hadd]
  rfl

/-! ### CALL and RET -/

/-- Settles O40: RET finds the byte that CALL pushed, which is pc + 2. -/
theorem callThenRetReturns : Obligations.CallThenRetReturns := by
  intro a s ha hm hp h0
  refine ⟨_, (Completes.call ha h0).exec_eq hp, s.sp_pushed s.returnAddress, fun u hpu hsp hread => ?_⟩
  have hsp' : u.sp = s.sp - 1 := hsp.trans (s.sp_pushed s.returnAddress)
  have htop : u.mem.read u.sp.toNat = s.returnAddress := by
    change u.mem.read (sp u).toNat = _
    rw [hsp, hread]
    exact State.read_pushed_top hm _
  refine ⟨_, (Completes.ret (hsp' ▸ sub_one_ne_top h0)).exec_eq hpu, ?_, ?_⟩
  · rw [State.setPc_pc, toNat_pcOfByte, htop, State.returnAddress_eq, BitVec.toNat_ofNat]
    omega
  · show (u.setSp (u.sp + 1)).sp = s.sp
    rw [State.sp_setSp, hsp', BitVec.sub_add_cancel]

/-! ### A store and the next fetch -/

theorem completes_of_fetched {i : Instr} {s t : State} (hf : Fetched s i) (h : step s = .next t) (ht : t.safe) :
    Completes i s t := by
  obtain ⟨j, hj, hc⟩ := completes_of_step_safe h ht
  have hij : i = j := by simpa using (State.fetchInstr_eq_ok.mpr hf).symm.trans (State.fetchInstr_eq_ok.mpr hj)
  exact hij ▸ hc

theorem Completes.mem_of_push {a : Byte} {s t : State} (hc : Completes (.push a) s t) (ha : a.toNat < 8) :
    t.mem = s.mem.write (s.sp - 1).toNat (if a = 7 then s.sp - 1 else s.regs[a.toNat]) := by
  cases hc
  rw [State.advance_mem, State.pushed_mem, State.reg_setSp_operand]

theorem Completes.mem_of_call {a : Byte} {s t : State} (hc : Completes (.call a) s t) :
    t.mem = s.mem.write (s.sp - 1).toNat (BitVec.ofNat 8 (s.pc.toNat + 2)) := by
  cases hc
  rw [State.setPc_mem, State.pushed_mem, State.returnAddress_eq]

/-- Settles O41: the memory after the store is the old one with one byte written, and the next step fetches from it. -/
theorem fetchSeesEarlierStore : Obligations.FetchSeesEarlierStore := by
  intro a s t v ha hm h ht hv window
  have hsafe := State.safe_of_running ht
  have hmem : t.mem = s.mem.write (s.sp - 1).toNat v := by
    obtain ⟨hf, rfl⟩ | ⟨hf, rfl⟩ := hv
    · exact (completes_of_fetched hf h hsafe).mem_of_push ha
    · exact (completes_of_fetched hf h hsafe).mem_of_call
  have hwindow (k : Nat) : t.mem.read (t.pc.toNat + k) = window k := by
    rw [hmem]
    exact Memory.read_write hm _ _ v
  have hopcode : opcodeByte t = window 0 := hwindow 0
  refine ⟨fun k _ => hwindow k, fun hp i rest hd => step_of_fetched ht ⟨hp, rest, ?_⟩, fun hp hu => ?_⟩
  · rwa [← hwindow 0, ← hwindow 1, ← hwindow 2] at hd
  · rw [← hopcode] at hu ⊢
    exact step_unknown ht hp hu

end Sys2Proof.Machine
end
